-- ==== Sys2Proof/Word.lean ====
section
/-! DEFINITION. The values every other file speaks of: bytes, command and response words, the four-byte words and the
sixteen-byte blocks of the block core, each with its exclusive or and its zero. -/

namespace Sys2Proof

/-- An unsigned byte, bit 0 the least significant (R8). -/
abbrev Byte := BitVec 8

/-- A command word or a response word of the ports: 32 bits, presented whole (R55, R62). -/
abbrev Word := BitVec 32

/-- A word of the block core: 4 bytes in sequence order, `b0` the first (R83).
Nothing treats it as a number. -/
structure AesWord where
  b0 : Byte
  b1 : Byte
  b2 : Byte
  b3 : Byte
  deriving DecidableEq, Repr, Inhabited

/-- A block of exactly 16 bytes, kept as the four columns of the 4 x 4 state array: byte `i` of the block is
row `i mod 4` of column `i div 4` (R82, R39). -/
structure Block where
  c0 : AesWord
  c1 : AesWord
  c2 : AesWord
  c3 : AesWord
  deriving DecidableEq, Repr, Inhabited

/-- The zero word. -/
def AesWord.zero : AesWord := ⟨0, 0, 0, 0⟩

/-- The block of sixteen zero bytes. -/
def Block.zero : Block := ⟨.zero, .zero, .zero, .zero⟩

/-- Exclusive or of two words, byte by byte (R83). -/
def AesWord.xor (u v : AesWord) : AesWord :=
  ⟨u.b0 ^^^ v.b0, u.b1 ^^^ v.b1, u.b2 ^^^ v.b2, u.b3 ^^^ v.b3⟩

/-- Exclusive or of two blocks, byte by byte (R8). -/
def Block.xor (a b : Block) : Block :=
  ⟨a.c0.xor b.c0, a.c1.xor b.c1, a.c2.xor b.c2, a.c3.xor b.c3⟩

end Sys2Proof
end

