-- ==== Sys2Proof/Syntax.lean ====
section
/-! DEFINITION. The commands of the engine: one constructor for each row of spec/opcode_table.json (R58). -/

namespace Sys2Proof

/-- A legal command.
The one operand a command can carry is the unsigned byte `IMM` of KEYB and DATB (R57), whose width its type fixes. -/
inductive Instr where
  /-- NOP, no-operation (R131). -/
  | nop
  /-- KEYB imm, append one byte to the key (R132). -/
  | keyb (imm : Byte)
  /-- DATB imm, append one byte to the input (R133). -/
  | datb (imm : Byte)
  /-- ENC, start the document's `encrypt` (R121). -/
  | enc
  /-- DEC, start the document's `decrypt` (R122). -/
  | dec
  /-- ECB, start the encryption of one block (R94). -/
  | ecb
  /-- STAT, read the status (R134). -/
  | stat
  /-- RDL, read the length of the result (R135). -/
  | rdl
  /-- RDB, read the next byte of the result (R136). -/
  | rdb
  /-- RWD, rewind the read pointer (R137). -/
  | rwd
  /-- CLR, return every state element to its reset value (R138). -/
  | clr
  deriving DecidableEq, Repr

end Sys2Proof
end

