-- ==== Sys2Proof/WellFormed.lean ====
section
/-! DEFINITION. Well-formed command lines: the text form of R66 with its checks, and the line that stands for a command.

A term of `Instr` cannot be ill-formed: its one operand is a byte by its type.
What can be ill-formed is what a host writes, a mnemonic with or without an operand of any size, and what a host sends,
a 32-bit word (its checks are the decode tests of R59 in Decode.lean). -/

namespace Sys2Proof

/-- The eleven mnemonics (R58, R66). -/
inductive Mnemonic where
  | nop | keyb | datb | enc | dec | ecb | stat | rdl | rdb | rwd | clr
  deriving DecidableEq, Repr

/-- KEYB and DATB take exactly one byte operand and the other nine take none (R57, R66). -/
def Mnemonic.takesByte : Mnemonic → Bool
  | .keyb => true
  | .datb => true
  | .nop => false
  | .enc => false
  | .dec => false
  | .ecb => false
  | .stat => false
  | .rdl => false
  | .rdb => false
  | .rwd => false
  | .clr => false

/-- One command of the text form: a mnemonic and the operand written after it, if any (R66; from the tokens on: DESIGN
CHOICE, safe, assumption log 13). -/
structure Line where
  mnemonic : Mnemonic
  operand  : Option Nat
  deriving DecidableEq, Repr

/-- Why a line is no command (R66). -/
inductive LineError where
  /-- KEYB or DATB without its byte. -/
  | operandMissing
  /-- An operand after a mnemonic that takes none. -/
  | operandUnexpected
  /-- An operand that is no byte. -/
  | operandTooWide
  deriving DecidableEq, Repr

/-- The checks of R66 on one line: what is wrong with it, or nothing. -/
def Line.problem (l : Line) : Option LineError :=
  match l.mnemonic.takesByte, l.operand with
  | true, none => some .operandMissing
  | true, some n => if n < 256 then none else some .operandTooWide
  | false, none => none
  | false, some _ => some .operandUnexpected

/-- A line is well-formed when no check refuses it. -/
def Line.wellFormed (l : Line) : Bool := l.problem.isNone

/-- The mnemonic of a command. -/
def Instr.mnemonic : Instr → Mnemonic
  | .nop => .nop
  | .keyb _ => .keyb
  | .datb _ => .datb
  | .enc => .enc
  | .dec => .dec
  | .ecb => .ecb
  | .stat => .stat
  | .rdl => .rdl
  | .rdb => .rdb
  | .rwd => .rwd
  | .clr => .clr

/-- The operand byte of a command, if it has one (R57). -/
def Instr.operand : Instr → Option Byte
  | .keyb imm => some imm
  | .datb imm => some imm
  | .nop => none
  | .enc => none
  | .dec => none
  | .ecb => none
  | .stat => none
  | .rdl => none
  | .rdb => none
  | .rwd => none
  | .clr => none

/-- The line that stands for a command in the text form of R66. -/
def Instr.line (i : Instr) : Line := ⟨i.mnemonic, i.operand.map BitVec.toNat⟩

/-- A command is well-formed when its line is; every command is (Laws/PerInstr.lean). -/
def Instr.wellFormed (i : Instr) : Bool := i.line.wellFormed

end Sys2Proof
end

