-- ==== Sys2Proof/Decode.lean ====
section
/-! DEFINITION. The command word: its fields, the decode tests of R59 in their order, the opcode map of R58 as a table of
masks and patterns, and the encoder. -/

namespace Sys2Proof

/-- The fields of format `C`: `OPC = C[31:24]`, `RSV = C[23:8]`, `IMM = C[7:0]` (R55, R56). -/
structure CommandFields where
  opc : BitVec 8
  rsv : BitVec 16
  imm : BitVec 8
  deriving DecidableEq, Repr

/-- The fields of a command word (R56). -/
def fieldsOf (c : Word) : CommandFields :=
  ⟨c.extractLsb' 24 8, c.extractLsb' 8 16, c.extractLsb' 0 8⟩

/-- The word made of its fields, `OPC` in bits 31:24, `RSV` in bits 23:8, `IMM` in bits 7:0 (R55). -/
def CommandFields.word (f : CommandFields) : Word := (f.opc ++ f.rsv ++ f.imm : BitVec (8 + 16 + 8))

/-- Which of the decode tests 1 to 3 of R59 refuses a word. -/
inductive Illegal where
  /-- Test 1: `RSV != 0`. -/
  | reservedBits
  /-- Test 2: `OPC` is not one of the eleven. -/
  | reservedOpcode
  /-- Test 3: `IMM != 0` on a command that takes no byte. -/
  | strayImmediate
  deriving DecidableEq, Repr

/-- The operation code of each mnemonic (R58). -/
def Mnemonic.opc : Mnemonic → BitVec 8
  | .nop => 0x00
  | .keyb => 0x01
  | .datb => 0x02
  | .enc => 0x10
  | .dec => 0x11
  | .ecb => 0x12
  | .stat => 0x20
  | .rdl => 0x21
  | .rdb => 0x22
  | .rwd => 0x23
  | .clr => 0x30

/-- The mnemonic of an operation code; every other code is reserved (R58, R60). -/
def mnemonicOf (opc : BitVec 8) : Option Mnemonic :=
  match opc.toNat with
  | 0x00 => some .nop
  | 0x01 => some .keyb
  | 0x02 => some .datb
  | 0x10 => some .enc
  | 0x11 => some .dec
  | 0x12 => some .ecb
  | 0x20 => some .stat
  | 0x21 => some .rdl
  | 0x22 => some .rdb
  | 0x23 => some .rwd
  | 0x30 => some .clr
  | _ => none

/-- A command without an operand: its `IMM` must be zero (R59 test 3, R61). -/
def bareCommand (imm : Byte) (i : Instr) : Except Illegal Instr :=
  if imm = 0 then .ok i else .error .strayImmediate

/-- Tests 1 to 3 of R59 on a command word: the command it is, or the first test that refuses it. -/
def decode (c : Word) : Except Illegal Instr :=
  let f := fieldsOf c
  if f.rsv ≠ 0 then .error .reservedBits
  else
    match mnemonicOf f.opc with
    | none => .error .reservedOpcode
    | some .keyb => .ok (.keyb f.imm)
    | some .datb => .ok (.datb f.imm)
    | some .nop => bareCommand f.imm .nop
    | some .enc => bareCommand f.imm .enc
    | some .dec => bareCommand f.imm .dec
    | some .ecb => bareCommand f.imm .ecb
    | some .stat => bareCommand f.imm .stat
    | some .rdl => bareCommand f.imm .rdl
    | some .rdb => bareCommand f.imm .rdb
    | some .rwd => bareCommand f.imm .rwd
    | some .clr => bareCommand f.imm .clr

/-- The word of a command: its operation code, sixteen zero bits, its operand byte or zero (R55, R58). -/
def encode (i : Instr) : Word :=
  CommandFields.word ⟨i.mnemonic.opc, 0, i.operand.getD 0⟩

/-- A row of the opcode map: a word `c` is the row's command exactly when `c &&& mask = pattern` (R58). -/
structure OpcodeRow where
  mnemonic : Mnemonic
  pattern  : Word
  mask     : Word
  deriving DecidableEq, Repr

/-- The opcode map of R58, row by row, with the pattern the table calls `match`. -/
def opcodeRows : List OpcodeRow :=
  [ ⟨.nop,  0x00000000, 0xFFFFFFFF⟩,
    ⟨.keyb, 0x01000000, 0xFFFFFF00⟩,
    ⟨.datb, 0x02000000, 0xFFFFFF00⟩,
    ⟨.enc,  0x10000000, 0xFFFFFFFF⟩,
    ⟨.dec,  0x11000000, 0xFFFFFFFF⟩,
    ⟨.ecb,  0x12000000, 0xFFFFFFFF⟩,
    ⟨.stat, 0x20000000, 0xFFFFFFFF⟩,
    ⟨.rdl,  0x21000000, 0xFFFFFFFF⟩,
    ⟨.rdb,  0x22000000, 0xFFFFFFFF⟩,
    ⟨.rwd,  0x23000000, 0xFFFFFFFF⟩,
    ⟨.clr,  0x30000000, 0xFFFFFFFF⟩ ]

/-- The command word whose low `nbits` bits are those of `w` and whose other bits are zero (DEDUCED from R55, safe,
assumption log 15). -/
def tableWord (nbits w : Nat) : Word := BitVec.ofNat 32 (w % 2 ^ nbits)

/-- The command the decoder reads from the bits of an opcode-table row (a command is one word of 32 bits, R55). -/
def decodeTableWord (nbits w : Nat) : Option Instr :=
  match decode (tableWord nbits w) with
  | .ok i => some i
  | .error _ => none

end Sys2Proof
end

