-- ==== Sys2Proof/Config.lean ====
section
/-! DEFINITION. What is fixed for one engine and what the spec leaves free: the parameters of R6, the capacity `ICAP`
as a bounded value that every state carries, the shape of the random source's answer, and the answers nobody fixed. -/

namespace Sys2Proof

/-- `KEYLEN`, the only accepted key length in bytes (R6). -/
def keyLen : Nat := 32

/-- `BLK`, the block size: of the cipher, of the IV, of the padding modulus, of the feedback segment (R6, R100). -/
def blk : Nat := 16

/-- `Nk`, the key length in 32-bit words (R6). -/
def aesNk : Nat := 8

/-- `Nb`, the block length in 32-bit words (R6). -/
def aesNb : Nat := 4

/-- `Nr`, the number of rounds (R6). -/
def aesNr : Nat := 14

/-- `NW`, the number of round-key words, `Nb * (Nr + 1)` (R6). -/
def aesNw : Nat := 60

/-- `ICAP`, the capacity of the input buffer in bytes: the one open parameter of the engine, `32 <= ICAP <= 65503`
(R6, decision D7).
Every state carries one, so that a statement about every state is a statement about every capacity. -/
abbrev Capacity := { n : Nat // 32 ≤ n ∧ n ≤ 65503 }

/-- The default of R6, 4096 bytes: what the state after reset carries (DESIGN CHOICE, safe, assumption log 2). -/
def Capacity.default : Capacity := ⟨4096, by decide⟩

/-- `OCAP = ICAP + 32`, the capacity of the output buffer in bytes (R6). -/
def Capacity.ocap (c : Capacity) : Nat := c.val + 32

/-- The random source's answer to one request: sixteen bytes in delivery order, or none at all.
There are no partial answers (R48, decision D16). -/
inductive RngAnswer where
  /-- `RngBytes(b)`: byte `i` delivered is byte `i` of the block. -/
  | bytes (b : Block)
  /-- `RngUnavailable`. -/
  | unavailable
  deriving DecidableEq, Repr, Inhabited

namespace Config

/-- The random source's answer to request number `n`, where the state's own input list fixes none.
A FREE VALUE (U1, U2 of 93_implementation_defined.md): it has no body, so nothing can be proved of it (DESIGN CHOICE,
safe, assumption log 3). -/
opaque freeRngAnswer : Nat → RngAnswer

end Config

end Sys2Proof
end

