-- ==== Sys2Proof/Machine/Operands.lean ====
section
/-! DEFINITION. Forms of operands: the zero extension of a response value, and the byte order in which sequences become
blocks and words of the block core, and blocks become sequences. -/

namespace Sys2Proof

/-- `zext_16(v)` of a byte (R8, R64). -/
def zext16 (v : Byte) : BitVec 16 := v.setWidth 16

/-- Byte `i` of a sequence, where the rules that read it keep `i` below the length (R36; zero elsewhere: DESIGN
CHOICE, unsafe outside the invariant, assumption log 12). -/
def byteAt (bs : List Byte) (i : Nat) : Byte := bs.getD i 0

/-- Word `i` of a sequence: `(K[4i], K[4i+1], K[4i+2], K[4i+3])` (R39, R90). -/
def wordAt (bs : List Byte) (i : Nat) : AesWord :=
  ⟨byteAt bs (4 * i), byteAt bs (4 * i + 1), byteAt bs (4 * i + 2), byteAt bs (4 * i + 3)⟩

/-- The block loaded from the first sixteen bytes of a sequence, column by column (R82). -/
def Block.ofBytes (bs : List Byte) : Block :=
  ⟨wordAt bs 0, wordAt bs 1, wordAt bs 2, wordAt bs 3⟩

/-- The four bytes of a word, first byte first (R83). -/
def AesWord.toBytes (v : AesWord) : List Byte := [v.b0, v.b1, v.b2, v.b3]

/-- The sixteen bytes of a block, unloaded column by column (R82). -/
def Block.toBytes (b : Block) : List Byte :=
  b.c0.toBytes ++ b.c1.toBytes ++ b.c2.toBytes ++ b.c3.toBytes

/-- The first `m` blocks of a sequence: `X_i = X[16(i-1) .. 16i)` for `i = 1..m` (R105). -/
def takeBlocks : Nat → List Byte → List Block
  | 0, _ => []
  | m + 1, bs => Block.ofBytes (bs.take blk) :: takeBlocks m (bs.drop blk)

/-- The blocks of a sequence whose length is a multiple of 16. -/
def blocksOf (bs : List Byte) : List Block := takeBlocks (bs.length / blk) bs

/-- The concatenation of blocks, in order. -/
def bytesOfBlocks : List Block → List Byte
  | [] => []
  | b :: bs => b.toBytes ++ bytesOfBlocks bs

end Sys2Proof
end

