-- ==== Sys2Proof/Machine/BlockCipher.lean ====
section
/-! DEFINITION. The block core: arithmetic in GF(2^8), the S-box, the four transformations, the key schedule and the
cipher in its one direction (40_block_cipher.md, R75 to R92). -/

namespace Sys2Proof

/-- Multiplication of a byte by `x`: the left shift, with `0x1B` added when bit 7 drops out (R78). -/
def xtime (b : Byte) : Byte := (b <<< 1) ^^^ (if b.getLsbD 7 then 0x1B else 0x00)

/-- One turn of the loop of R79 for bit `i` of `b`: the product so far and the shifted first factor. -/
def gmulStep (b : Byte) (pa : Byte × Byte) (i : Nat) : Byte × Byte :=
  (if b.getLsbD i then pa.1 ^^^ pa.2 else pa.1, xtime pa.2)

/-- Multiplication of two bytes in the field, by the loop over the eight bits of `b` (R79). -/
def gmul (a b : Byte) : Byte := ((List.range 8).foldl (gmulStep b) (0x00, a)).1

/-- The sixteen rows of the table of R80, each as its sixteen bytes read from left to right. -/
def sboxRows : List (BitVec 128) :=
  [ 0x637c777bf26b6fc53001672bfed7ab76,
    0xca82c97dfa5947f0add4a2af9ca472c0,
    0xb7fd9326363ff7cc34a5e5f171d83115,
    0x04c723c31896059a071280e2eb27b275,
    0x09832c1a1b6e5aa0523bd6b329e32f84,
    0x53d100ed20fcb15b6acbbe394a4c58cf,
    0xd0efaafb434d338545f9027f503c9fa8,
    0x51a3408f929d38f5bcb6da2110fff3d2,
    0xcd0c13ec5f974417c4a77e3d645d1973,
    0x60814fdc222a908846eeb814de5e0bdb,
    0xe0323a0a4906245cc2d3ac629195e479,
    0xe7c8376d8dd54ea96c56f4ea657aae08,
    0xba78252e1ca6b4c6e8dd741f4bbd8b8a,
    0x703eb5664803f60e613557b986c11d9e,
    0xe1f8981169d98e949b1e87e9ce5528df,
    0x8ca1890dbfe6426841992d0fb054bb16 ]

/-- `SBOX[v]`: row the high hex digit of `v`, column the low one (R80). -/
def sbox (v : Byte) : Byte :=
  ((sboxRows.getD (v.toNat / 16) 0) >>> (8 * (15 - v.toNat % 16))).setWidth 8

/-- A function on bytes applied to each byte of a word. -/
def AesWord.map (f : Byte → Byte) (v : AesWord) : AesWord := ⟨f v.b0, f v.b1, f v.b2, f v.b3⟩

/-- A function on words applied to each column of a block. -/
def Block.mapColumns (f : AesWord → AesWord) (s : Block) : Block := ⟨f s.c0, f s.c1, f s.c2, f s.c3⟩

/-- `SubBytes` (R84). -/
def subBytes (s : Block) : Block := s.mapColumns (AesWord.map sbox)

/-- `ShiftRows`: row `r` rotated left by `r` positions (R85). -/
def shiftRows (s : Block) : Block :=
  ⟨⟨s.c0.b0, s.c1.b1, s.c2.b2, s.c3.b3⟩,
   ⟨s.c1.b0, s.c2.b1, s.c3.b2, s.c0.b3⟩,
   ⟨s.c2.b0, s.c3.b1, s.c0.b2, s.c1.b3⟩,
   ⟨s.c3.b0, s.c0.b1, s.c1.b2, s.c2.b3⟩⟩

/-- One column of `MixColumns` (R86). -/
def mixColumn (v : AesWord) : AesWord :=
  ⟨gmul 0x02 v.b0 ^^^ gmul 0x03 v.b1 ^^^ v.b2 ^^^ v.b3,
   v.b0 ^^^ gmul 0x02 v.b1 ^^^ gmul 0x03 v.b2 ^^^ v.b3,
   v.b0 ^^^ v.b1 ^^^ gmul 0x02 v.b2 ^^^ gmul 0x03 v.b3,
   gmul 0x03 v.b0 ^^^ v.b1 ^^^ v.b2 ^^^ gmul 0x02 v.b3⟩

/-- `MixColumns` (R86). -/
def mixColumns (s : Block) : Block := s.mapColumns mixColumn

/-- The sixty words of a key schedule. -/
abbrev RoundKeys := Vector AesWord 60

/-- Word `W[j]`; the rules use `j < 60` only (zero elsewhere: DESIGN CHOICE, assumption log 12). -/
def RoundKeys.word (w : RoundKeys) (j : Nat) : AesWord := w.toList.getD j .zero

/-- The round key of a round, words `W[4*round .. 4*round+3]` (R87, R90). -/
def RoundKeys.key (w : RoundKeys) (round : Nat) : Block :=
  ⟨w.word (4 * round), w.word (4 * round + 1), w.word (4 * round + 2), w.word (4 * round + 3)⟩

/-- `AddRoundKey(round)` (R87). -/
def addRoundKey (w : RoundKeys) (round : Nat) (s : Block) : Block := s.xor (w.key round)

/-- The byte `rc_(j+1)`: `rc_1 = 0x01`, and each next one is `xtime` of the one before (R88). -/
def roundConstant : Nat → Byte
  | 0 => 0x01
  | j + 1 => xtime (roundConstant j)

/-- `Rcon[j]`, used for `j = 1..7` only (R88). -/
def rcon (j : Nat) : AesWord := ⟨roundConstant (j - 1), 0x00, 0x00, 0x00⟩

/-- `RotWord` (R89). -/
def rotWord (v : AesWord) : AesWord := ⟨v.b1, v.b2, v.b3, v.b0⟩

/-- `SubWord` (R89). -/
def subWord (v : AesWord) : AesWord := v.map sbox

/-- What the key schedule makes of `W[i-1]` before it is added to `W[i-8]`: the three cases of the loop of R90. -/
def scheduleTemp (i : Nat) (prev : AesWord) : AesWord :=
  if i % 8 = 0 then (subWord (rotWord prev)).xor (rcon (i / 8))
  else if i % 8 = 4 then subWord prev
  else prev

/-- One turn of the loop of R90 on the words so far, newest first: `W[i]` from `W[i-1]` and `W[i-8]`. -/
def scheduleStep (ws : List AesWord) : List AesWord :=
  ((ws.getD 7 .zero).xor (scheduleTemp ws.length (ws.getD 0 .zero))) :: ws

/-- `n` turns of the loop of R90. -/
def scheduleLoop : Nat → List AesWord → List AesWord
  | 0, ws => ws
  | n + 1, ws => scheduleLoop n (scheduleStep ws)

/-- The words of the key schedule in order: the eight words of the key and fifty-two more (R90). -/
def scheduleWords (key : List Byte) : List AesWord :=
  (scheduleLoop 52 ((List.range 8).map (wordAt key)).reverse).reverse

/-- Each turn of the loop adds one word. -/
theorem scheduleLoop_length (n : Nat) (ws : List AesWord) :
    (scheduleLoop n ws).length = ws.length + n := by
  induction n generalizing ws with
  | zero => rfl
  | succ n ih => simp only [scheduleLoop, ih, scheduleStep, List.length_cons]; omega

/-- The schedule has sixty words. -/
theorem scheduleWords_length (key : List Byte) : (scheduleWords key).length = 60 := by
  simp [scheduleWords, scheduleLoop_length]

/-- `KeyExpansion(K)` (R90); every operation applies it to 32 bytes (R75). -/
def keyExpansion (key : List Byte) : RoundKeys :=
  ⟨(scheduleWords key).toArray, by simp [scheduleWords_length]⟩

/-- One full round of the loop of R91. -/
def fullRound (w : RoundKeys) (s : Block) (round : Nat) : Block :=
  addRoundKey w round (mixColumns (shiftRows (subBytes s)))

/-- `Cipher(W, in)`: thirteen full rounds and a last round without `MixColumns` (R91). -/
def cipher (w : RoundKeys) (input : Block) : Block :=
  addRoundKey w 14
    (shiftRows (subBytes ((List.range' 1 13).foldl (fullRound w) (addRoundKey w 0 input))))

/-- `BlockEncrypt(K, B)`, the document's block cipher (R75). -/
def blockEncrypt (key : List Byte) (b : Block) : Block := cipher (keyExpansion key) b

end Sys2Proof
end

