-- ==== Sys2Proof/Machine/State.lean ====
section
/-! DEFINITION. The state of the machine as plain data: the engine's own registers and buffers (R10), the ports and the
environment that drives them (R7), the state after reset (R31), and the reasons a step can stop. -/

namespace Sys2Proof.Machine

/-- The three byte-addressed buffer spaces (R35). -/
inductive Space where
  | keybuf | ibuf | obuf
  deriving DecidableEq, Repr

/-- The contents of the three buffer spaces, the engine's only memory (R35).
`KEYBUF` is 32 bytes; `IBUF` with `ILEN` and `OBUF` with `OLEN` are each the byte sequence below the length register, as
R15, R18 and U9 say a model should have them, so that the storage bytes above the lengths do not exist here
(DESIGN CHOICE, safe, assumption log 1). -/
structure Memory where
  keybuf : Vector Byte 32
  ibuf   : List Byte
  obuf   : List Byte
  deriving DecidableEq, Repr

/-- Every buffer holds no more than its capacity (R10, R35); `KEYBUF` does by its type. -/
def Memory.wf (cap : Capacity) (m : Memory) : Bool :=
  decide (m.ibuf.length ≤ cap.val) && decide (m.obuf.length ≤ cap.ocap)

/-- The error kinds with which an operation can end (R150; DESIGN CHOICE of the type, safe, assumption log 8). -/
inductive ErrKind where
  | invalidKeyLength
  | invalidCiphertextFraming
  | paddingError
  | randomSourceUnavailable
  | inputOverflow
  | invalidBlockLength
  deriving DecidableEq, Repr

/-- The operations a start command latches (R25; DESIGN CHOICE of the type, safe, assumption log 8). -/
inductive OpKind where
  | enc | dec | ecb
  deriving DecidableEq, Repr

/-- The architectural state of one engine, the tuple of R10.
`ILEN` and `OLEN` are the lengths of `mem.ibuf` and `mem.obuf` (`Engine.ilen`, `Engine.olen`); `STATUS` is assembled
from the flags (`Engine.status`, R21). -/
structure Engine where
  /-- `KEYBUF`, `IBUF[0..ILEN)`, `OBUF[0..OLEN)`. -/
  mem    : Memory
  /-- `KEYCNT`, 0 to 33 (R14). -/
  keycnt : Nat
  /-- `IOVF`, the sticky overflow flag (R17). -/
  iovf   : Bool
  /-- `RPTR`, the read cursor into `OBUF` (R20). -/
  rptr   : Nat
  /-- `BUSY` (R22). -/
  busy   : Bool
  /-- `DONE` (R23). -/
  done   : Bool
  /-- `ERR`, code 0 being `none` (R24). -/
  err    : Option ErrKind
  /-- `OP`, code 0 being `none` (R25). -/
  op     : Option OpKind
  /-- `W[0..59]`, the round-key store, hidden (R26; kept though R29 lets a model leave it out, assumption log 10). -/
  w      : Vector AesWord 60
  /-- `FB[0..15]`, the feedback register, hidden (R27). -/
  fb     : Block
  /-- `ST[0..15]`, the cipher's working state, hidden (R28). -/
  st     : Block
  deriving DecidableEq, Repr

/-- One thing the environment does to the engine: the step some agent takes next (R7). -/
inductive Event where
  /-- The host presents a command word on the command port (R59). -/
  | command (c : Word)
  /-- The ENGINE step happens, with the answer the random source gives if it is asked (R118). -/
  | complete (a : RngAnswer)
  /-- Reset is asserted (R180). -/
  | reset
  deriving DecidableEq, Repr

/-- The whole machine: the engine, its capacity, and the environment's side of its ports.
`icap` is the constant of the instance (R6, R30).
The model's own three fields are `inputs`, what the environment does next, in order (R7, U13), `out`, the response words
the response port has given, oldest first (R62, R65), and `rngReq`, how many requests the ENGINE steps so far have made
of the random source (R48, R119, R182; DESIGN CHOICE and DEDUCED, assumption log 6 and 7). -/
structure State where
  icap   : Capacity
  engine : Engine
  inputs : List Event
  out    : List Word
  rngReq : Nat
  deriving DecidableEq, Repr

/-- The buffers after reset: a zero key buffer, no input, no result (R31). -/
def Memory.reset : Memory := ⟨Vector.replicate 32 0, [], []⟩

/-- The engine after reset: every element zero (R31, R180). -/
def Engine.reset : Engine where
  mem    := Memory.reset
  keycnt := 0
  iovf   := false
  rptr   := 0
  busy   := false
  done   := false
  err    := none
  op     := none
  w      := Vector.replicate 60 .zero
  fb     := .zero
  st     := .zero

/-- The machine right after reset: the reset engine at the default capacity, with nothing presented on a port yet
(R31, R181; assumption log 2 and 4). -/
def State.reset : State where
  icap   := Capacity.default
  engine := Engine.reset
  inputs := []
  out    := []
  rngReq := 0

/-- The reasons the machine can stop with a fault. -/
inductive Fault where
  /-- Raised by the ENGINE step in a state with `BUSY = 1` and `OP = 0`, for which R118 has no branch and which it calls
  unreachable.
  DESIGN CHOICE, safe: no state that meets the invariant of R32 raises it (assumption log 9). -/
  | completeWithoutOperation
  deriving DecidableEq, Repr

/-- The reasons the model can refuse an instruction. -/
inductive Refusal where
  /-- Raised by an arm of `exec` for an instruction that has no meaning yet; no arm raises it now.
  Safe: the model says nothing of such an instruction. -/
  | notModelled (mnemonic : String)
  deriving DecidableEq, Repr

end Sys2Proof.Machine
end

