-- ==== Sys2Proof/Machine/Chaining.lean ====
section
/-! DEFINITION. The chaining engine as functions on byte sequences: padding and its inverse, whole-block cipher feedback
in both directions, the framing check, and the document's two operations (41_chaining.md, R100 to R111). -/

namespace Sys2Proof

open Machine (ErrKind)

/-- The number of padding bytes, `N = 16 - (len(P) mod 16)` (R101). -/
def padCount (len : Nat) : Nat := blk - len % blk

/-- `Pad(P)`: `N` bytes of value `N` appended, a whole block of them to an aligned input (R101). -/
def pad (p : List Byte) : List Byte :=
  p ++ List.replicate (padCount p.length) (BitVec.ofNat 8 (padCount p.length))

/-- `Unpad(X)`: the trailing byte is `N`, `1 <= N <= 16`, the last `N` bytes are all `N`, and they are stripped.
The empty sequence has no trailing byte and fails (R103, decision D15). -/
def unpad (x : List Byte) : Except ErrKind (List Byte) :=
  match x.getLast? with
  | none => .error .paddingError
  | some last =>
    let n := last.toNat
    if n < 1 ∨ 16 < n then .error .paddingError
    else if (x.drop (x.length - n)).all (· = last) then .ok (x.take (x.length - n))
    else .error .paddingError

/-- `CFBEnc` on blocks, for any block function: the feedback is the ciphertext block just made (R105, R107). -/
def cfbEncBlocks (enc : Block → Block) : Block → List Block → List Block
  | _, [] => []
  | fb, x :: xs => x.xor (enc fb) :: cfbEncBlocks enc (x.xor (enc fb)) xs

/-- `CFBDec` on blocks, for any block function, in its encrypt direction: the feedback is the ciphertext block just read
(R106, R107). -/
def cfbDecBlocks (enc : Block → Block) : Block → List Block → List Block
  | _, [] => []
  | fb, c :: cs => c.xor (enc fb) :: cfbDecBlocks enc c cs

/-- `CFBEnc(W, IV, X)` on a byte sequence (R105). -/
def cfbEnc (w : RoundKeys) (iv : Block) (x : List Byte) : List Byte :=
  bytesOfBlocks (cfbEncBlocks (cipher w) iv (blocksOf x))

/-- `CFBDec(W, IV, C)` on a byte sequence (R106). -/
def cfbDec (w : RoundKeys) (iv : Block) (c : List Byte) : List Byte :=
  bytesOfBlocks (cfbDecBlocks (cipher w) iv (blocksOf c))

/-- `FramingOK` on the length of a blob (R109). -/
def framingOk (len : Nat) : Bool := decide (16 ≤ len) && decide ((len - 16) % 16 = 0)

/-- `Encrypt(K, a, P)`, the document's `encrypt` (R110). -/
def encrypt (key : List Byte) (a : RngAnswer) (p : List Byte) : Except ErrKind (List Byte) :=
  if key.length ≠ keyLen then .error .invalidKeyLength
  else
    match a with
    | .unavailable => .error .randomSourceUnavailable
    | .bytes iv => .ok (iv.toBytes ++ cfbEnc (keyExpansion key) iv (pad p))

/-- `Decrypt(K, blob)`, the document's `decrypt` (R111). -/
def decrypt (key blob : List Byte) : Except ErrKind (List Byte) :=
  if key.length ≠ keyLen then .error .invalidKeyLength
  else if !framingOk blob.length then .error .invalidCiphertextFraming
  else unpad (cfbDec (keyExpansion key) (Block.ofBytes (blob.take 16)) (blob.drop 16))

end Sys2Proof
end

