-- ==== Sys2Proof/Machine/Flags.lean ====
section
/-! DEFINITION. The status word and what each step does to its fields (R21 to R25). -/

namespace Sys2Proof.Machine

/-- `code(E)` of an error kind (R150). -/
def ErrKind.code : ErrKind → Nat
  | .invalidKeyLength => 1
  | .invalidCiphertextFraming => 2
  | .paddingError => 3
  | .randomSourceUnavailable => 4
  | .inputOverflow => 5
  | .invalidBlockLength => 6

/-- The value of `ERR`: 0 is success (R24, R150). -/
def errCode (err : Option ErrKind) : Nat :=
  match err with
  | none => 0
  | some k => k.code

/-- The code of an operation: 1 ENC, 2 DEC, 3 ECB (R25). -/
def OpKind.code : OpKind → Nat
  | .enc => 1
  | .dec => 2
  | .ecb => 3

/-- The value of `OP`: 0 is none (R21, R25). -/
def opCode (op : Option OpKind) : Nat :=
  match op with
  | none => 0
  | some k => k.code

/-- `STATUS = BUSY + 2*DONE + 4*IOVF + 16*ERR + 256*OP`, a 16-bit value (R21). -/
def Engine.status (e : Engine) : BitVec 16 :=
  BitVec.ofNat 16
    (e.busy.toNat + 2 * e.done.toNat + 4 * e.iovf.toNat + 16 * errCode e.err + 256 * opCode e.op)

/-- The flags an accepted start command writes: `OP <- code`, `BUSY <- 1`, `DONE <- 0`, `ERR <- 0` (R140). -/
def Engine.flagsOnStart (e : Engine) (k : OpKind) : Engine :=
  { e with op := some k, busy := true, done := false, err := none }

/-- The flags the end of an operation writes: `BUSY <- 0`, `DONE <- 1`, `ERR <- err`, and `OP` left as it is (R120). -/
def Engine.flagsOnComplete (e : Engine) (err : Option ErrKind) : Engine :=
  { e with busy := false, done := true, err := err }

/-- All of `STATUS` becomes zero (R138). -/
def Engine.flagsCleared (e : Engine) : Engine :=
  { e with iovf := false, busy := false, done := false, err := none, op := none }

end Sys2Proof.Machine
end

