-- ==== Sys2Proof/Machine/Response.lean ====
section
/-! DEFINITION. The response word: the seven kinds and their 32 bits (R62, R63, R64). -/

namespace Sys2Proof.Machine

/-- What a command is answered with (R63). -/
inductive Response where
  /-- `ACK`: the command was accepted. -/
  | ack
  /-- `DATA`: a byte of the result. -/
  | data (v : Byte)
  /-- `STATUS`: the status value. -/
  | status (v : BitVec 16)
  /-- `LENGTH`: the length of the result. -/
  | length (v : BitVec 16)
  /-- `EMPTY`: there is no further byte. -/
  | empty
  /-- `NAK_BUSY`: refused while an operation is in progress. -/
  | nakBusy
  /-- `NAK_ILLEGAL`: not a command. -/
  | nakIllegal
  deriving DecidableEq, Repr

/-- `KIND`, bits 31:28 (R63). -/
def Response.kind : Response → BitVec 4
  | .ack => 0x0
  | .data _ => 0x1
  | .status _ => 0x2
  | .length _ => 0x3
  | .empty => 0x4
  | .nakBusy => 0xE
  | .nakIllegal => 0xF

/-- `VAL`, bits 15:0 (R63, R64). -/
def Response.val : Response → BitVec 16
  | .ack => 0
  | .data v => zext16 v
  | .status v => v
  | .length v => v
  | .empty => 0
  | .nakBusy => 0
  | .nakIllegal => 0

/-- The response word: `KIND` in bits 31:28, zero in bits 27:16, `VAL` in bits 15:0 (R62). -/
def Response.word (r : Response) : Word := (r.kind ++ (0 : BitVec 12) ++ r.val : BitVec (4 + 12 + 16))

end Sys2Proof.Machine
end

