-- ==== Sys2Proof/Machine/Ops.lean ====
section
/-! DEFINITION. The named operations the meanings are made of: reading and writing the three buffer spaces, answering a
command, refusing it while busy, starting an operation, and ending one with a result or with an error. -/

namespace Sys2Proof.Machine

/-- The bytes of a buffer space (R35). -/
def Memory.bytes (m : Memory) : Space → List Byte
  | .keybuf => m.keybuf.toList
  | .ibuf => m.ibuf
  | .obuf => m.obuf

/-- `MemRead(S, a, 1)`: byte `a` of the space, or none where the space has no such byte (R36). -/
def memRead (m : Memory) (sp : Space) (a : Nat) : Option Byte := (m.bytes sp)[a]?

/-- A sequence with its byte `a` set to `v`; at the end of the sequence it grows by that byte.
The rules write at no other index (R42), and such a write changes nothing here (DESIGN CHOICE, unsafe outside the
invariant, assumption log 12). -/
def writeSeq (bs : List Byte) (a : Nat) (v : Byte) : List Byte :=
  if a < bs.length then bs.set a v else if a = bs.length then bs ++ [v] else bs

/-- `MemWrite(S, a, 1, v)`: `S[a] <- v` and no other byte (R36). -/
def memWrite (m : Memory) (sp : Space) (a : Nat) (v : Byte) : Memory :=
  match sp with
  | .keybuf => { m with keybuf := m.keybuf.setIfInBounds a v }
  | .ibuf => { m with ibuf := writeSeq m.ibuf a v }
  | .obuf => { m with obuf := writeSeq m.obuf a v }

/-- `MemWrite(S, a, 1, v_0)`, `MemWrite(S, a+1, 1, v_1)`, ... in order (R120). -/
def memWriteAll (m : Memory) (sp : Space) (a : Nat) : List Byte → Memory
  | [] => m
  | v :: vs => memWriteAll (memWrite m sp a v) sp (a + 1) vs

/-- `KEYBUF[0..31] <- 0x00` each (R120, R138). -/
def Memory.clearKey (m : Memory) : Memory := { m with keybuf := Vector.replicate 32 0 }

/-- `ILEN <- 0`: `IBUF` becomes the empty sequence (R120, R138). -/
def Memory.clearInput (m : Memory) : Memory := { m with ibuf := [] }

/-- `OLEN <- 0`: `OBUF` becomes the empty sequence (R138, R140). -/
def Memory.clearOutput (m : Memory) : Memory := { m with obuf := [] }

/-- `ILEN`, the number of input bytes held (R16). -/
def Engine.ilen (e : Engine) : Nat := e.mem.ibuf.length

/-- `OLEN`, the length of the result (R19). -/
def Engine.olen (e : Engine) : Nat := e.mem.obuf.length

/-- `KEYBUF[0..32)` as a byte sequence (R13). -/
def Engine.key (e : Engine) : List Byte := e.mem.bytes .keybuf

/-- `IBUF[0..ILEN)` as a byte sequence (R15). -/
def Engine.input (e : Engine) : List Byte := e.mem.bytes .ibuf

/-- `OBUF[0..OLEN)` as a byte sequence (R18). -/
def Engine.result (e : Engine) : List Byte := e.mem.bytes .obuf

/-- `respond KIND(val)`: the response port gives one more word (R9, R62). -/
def State.respond (s : State) (r : Response) : State := { s with out := s.out ++ [r.word] }

/-- A HOST step that leaves the engine as `e` and answers `r` (R130). -/
def answer (s : State) (e : Engine) (r : Response) : Host.Outcome State Fault Refusal :=
  .next (State.respond { s with engine := e } r)

/-- Decode test 4 of R59: while `BUSY = 1` the command is answered `NAK_BUSY(0)` and changes nothing (R139); otherwise
its own rule applies. -/
def unlessBusy (s : State) (act : Host.Outcome State Fault Refusal) :
    Host.Outcome State Fault Refusal :=
  if s.engine.busy then answer s s.engine .nakBusy else act

/-- `StartOp(code)` on the engine: the operation is latched and the previous result dropped (R140). -/
def Engine.startOp (e : Engine) (k : OpKind) : Engine :=
  let e := e.flagsOnStart k
  { e with mem := e.mem.clearOutput, rptr := 0 }

/-- The HOST step common to ENC, DEC and ECB (R140). -/
def startOp (k : OpKind) (s : State) : Host.Outcome State Fault Refusal :=
  unlessBusy s (answer s (s.engine.startOp k) .ack)

/-- The clearing every operation ends with: key, input, and the hidden registers (R120). -/
def Engine.clearSecrets (e : Engine) : Engine :=
  { e with
    mem    := e.mem.clearKey.clearInput
    keycnt := 0
    iovf   := false
    w      := Vector.replicate 60 .zero
    fb     := .zero
    st     := .zero }

/-- `OBUF[0..len(out)) <- out` and `OLEN <- len(out)` (R120). -/
def Memory.putResult (m : Memory) (out : List Byte) : Memory :=
  memWriteAll m.clearOutput .obuf 0 out

/-- `Epilogue(err, out)`, the end of every operation (R120): the secrets are cleared, the result is `out` when there is
no error and empty when there is one, the cursor is at its start, and the flags say how it ended. -/
def Engine.epilogue (err : Option ErrKind) (out : List Byte) (e : Engine) : Engine :=
  let e := e.clearSecrets
  let m := match err with
    | none => e.mem.putResult out
    | some _ => e.mem.clearOutput
  Engine.flagsOnComplete { e with mem := m, rptr := 0 } err

/-- `raise E` inside an operation: nothing computed is kept and the operation ends through its epilogue (R9, R159).
This is the engine's whole exception entry; there is no return from it (R161). -/
def Engine.raise (k : ErrKind) (e : Engine) : Engine := e.epilogue (some k) []

/-- An operation whose computation ended with a result or with an error kind (R118, R120). -/
def Engine.finish (e : Engine) : Except ErrKind (List Byte) → Engine
  | .ok out => e.epilogue none out
  | .error k => e.raise k

/-- The engine with every element cleared, as CLR writes it (R138). -/
def Engine.clear (e : Engine) : Engine :=
  let e := e.clearSecrets.flagsCleared
  { e with mem := e.mem.clearOutput, rptr := 0 }

end Sys2Proof.Machine
end

