-- ==== Sys2Proof/Machine/Complete.lean ====
section
/-! DEFINITION. The ENGINE step `Complete`: the three operations carried out on the engine's own registers, with the round
keys in `W`, the feedback in `FB` and the cipher's state in `ST` (R93, R94, R118 to R122). -/

namespace Sys2Proof.Machine

/-- `W <- KeyExpansion(KEYBUF[0..32))` (R93). -/
def Engine.expandKey (e : Engine) : Engine := { e with w := keyExpansion e.key }

/-- One evaluation of the cipher on the feedback register: `ST` is left as `Cipher(W, FB)`, the keystream (R28, R105). -/
def Engine.runCipher (e : Engine) : Engine := { e with st := cipher e.w e.fb }

/-- The loop of R105 on the registers: the engine it leaves and the ciphertext bytes it appended. -/
def Engine.cfbEncRun (e : Engine) : List Block → Engine × List Byte
  | [] => (e, [])
  | x :: xs =>
    let e := e.runCipher
    let c := x.xor e.st
    let r := Engine.cfbEncRun { e with fb := c } xs
    (r.1, c.toBytes ++ r.2)

/-- The loop of R106 on the registers: the engine it leaves and the recovered bytes it appended. -/
def Engine.cfbDecRun (e : Engine) : List Block → Engine × List Byte
  | [] => (e, [])
  | c :: cs =>
    let e := e.runCipher
    let x := c.xor e.st
    let r := Engine.cfbDecRun { e with fb := c } cs
    (r.1, x.toBytes ++ r.2)

/-- `CompleteENC(a)` (R121). -/
def Engine.completeEnc (a : RngAnswer) (e : Engine) : Engine :=
  if e.keycnt ≠ 32 then e.raise .invalidKeyLength
  else if e.iovf then e.raise .inputOverflow
  else
    match a with
    | .unavailable => e.raise .randomSourceUnavailable
    | .bytes iv =>
      let r := { e.expandKey with fb := iv }.cfbEncRun (blocksOf (pad e.input))
      r.1.epilogue none (iv.toBytes ++ r.2)

/-- `CompleteDEC` (R122). -/
def Engine.completeDec (e : Engine) : Engine :=
  if e.keycnt ≠ 32 then e.raise .invalidKeyLength
  else if e.iovf then e.raise .inputOverflow
  else if !framingOk e.ilen then e.raise .invalidCiphertextFraming
  else
    let iv := Block.ofBytes (e.input.take 16)
    let r := { e.expandKey with fb := iv }.cfbDecRun (blocksOf (e.input.drop 16))
    r.1.finish (unpad r.2)

/-- `CompleteECB` (R94). -/
def Engine.completeEcb (e : Engine) : Engine :=
  if e.keycnt ≠ 32 then e.raise .invalidKeyLength
  else if e.iovf then e.raise .inputOverflow
  else if e.ilen ≠ 16 then e.raise .invalidBlockLength
  else
    let e := e.expandKey
    let e := { e with st := cipher e.w (Block.ofBytes e.input) }
    e.epilogue none e.st.toBytes

/-- `Complete(a)` on an engine whose latched operation is `k` (R118). -/
def Engine.complete (k : OpKind) (a : RngAnswer) (e : Engine) : Engine :=
  match k with
  | .enc => e.completeEnc a
  | .dec => e.completeDec
  | .ecb => e.completeEcb

/-- An operation asks the random source once if it is an ENC that has passed the key test and the overflow test, and
otherwise not at all (R119). -/
def Engine.asksRng (k : OpKind) (e : Engine) : Bool :=
  match k with
  | .enc => decide (e.keycnt = 32) && !e.iovf
  | .dec => false
  | .ecb => false

end Sys2Proof.Machine
end

