-- ==== Sys2Proof/Machine/HostCommands.lean ====
section
/-! DEFINITION. The meanings of the eight commands that load, read and clear: NOP, KEYB, DATB, STAT, RDL, RDB, RWD, CLR
(42_host_commands.md, R131 to R138). -/

namespace Sys2Proof.Machine

/-- NOP: nothing, also while busy (R131). -/
def execNop (s : State) : Host.Outcome State Fault Refusal := answer s s.engine .ack

/-- KEYB on the engine: the byte is appended while there is room, the 33rd byte is counted, later ones are not (R132). -/
def Engine.pushKey (e : Engine) (imm : Byte) : Engine :=
  if e.keycnt < 32 then
    { e with mem := memWrite e.mem .keybuf e.keycnt imm, keycnt := e.keycnt + 1 }
  else if e.keycnt = 32 then { e with keycnt := 33 }
  else e

/-- KEYB imm (R132). -/
def execKeyb (imm : Byte) (s : State) : Host.Outcome State Fault Refusal :=
  unlessBusy s (answer s (s.engine.pushKey imm) .ack)

/-- DATB on the engine: the byte is appended while there is room, otherwise the overflow flag is set (R133). -/
def Engine.pushInput (icap : Capacity) (e : Engine) (imm : Byte) : Engine :=
  if e.ilen < icap.val then { e with mem := memWrite e.mem .ibuf e.ilen imm }
  else { e with iovf := true }

/-- DATB imm (R133). -/
def execDatb (imm : Byte) (s : State) : Host.Outcome State Fault Refusal :=
  unlessBusy s (answer s (s.engine.pushInput s.icap imm) .ack)

/-- STAT: the status word, also while busy (R134). -/
def execStat (s : State) : Host.Outcome State Fault Refusal :=
  answer s s.engine (.status s.engine.status)

/-- RDL: the length of the result (R135), which fits 16 bits within `OCAP` (assumption log 12). -/
def execRdl (s : State) : Host.Outcome State Fault Refusal :=
  unlessBusy s (answer s s.engine (.length (BitVec.ofNat 16 s.engine.olen)))

/-- The byte RDB reads: `OBUF[RPTR]` when `RPTR < OLEN` (R136). -/
def Engine.nextByte (e : Engine) : Option Byte := memRead e.mem .obuf e.rptr

/-- RDB when it is not refused: the next byte and the cursor moved past it, or EMPTY (R136). -/
def readNext (s : State) : Host.Outcome State Fault Refusal :=
  match s.engine.nextByte with
  | some v => answer s { s.engine with rptr := s.engine.rptr + 1 } (.data v)
  | none => answer s s.engine .empty

/-- RDB (R136). -/
def execRdb (s : State) : Host.Outcome State Fault Refusal := unlessBusy s (readNext s)

/-- RWD: the cursor back to the first byte (R137). -/
def execRwd (s : State) : Host.Outcome State Fault Refusal :=
  unlessBusy s (answer s { s.engine with rptr := 0 } .ack)

/-- CLR: every state element to its reset value (R138). -/
def execClr (s : State) : Host.Outcome State Fault Refusal :=
  unlessBusy s (answer s s.engine.clear .ack)

end Sys2Proof.Machine
end

