-- ==== Sys2Proof/Machine/StartCommands.lean ====
section
/-! DEFINITION. The meanings of the three start commands: each latches its operation, which the ENGINE step of
Machine/Complete.lean then carries out (R140, R121, R122, R94). -/

namespace Sys2Proof.Machine

/-- ENC: start the document's `encrypt` (R121). -/
def execEnc (s : State) : Host.Outcome State Fault Refusal := startOp .enc s

/-- DEC: start the document's `decrypt` (R122). -/
def execDec (s : State) : Host.Outcome State Fault Refusal := startOp .dec s

/-- ECB: start the encryption of the one block in the input buffer (R94). -/
def execEcb (s : State) : Host.Outcome State Fault Refusal := startOp .ecb s

end Sys2Proof.Machine
end

