-- ==== Sys2Proof/Machine/Dispatch.lean ====
section
/-! DEFINITION. The HOST step of a legal command: tests 4 and 5 of R59, one arm for each command. -/

namespace Sys2Proof.Machine

def exec (i : Instr) (s : State) : Host.Outcome State Fault Refusal :=
  match i with
  | .nop => Sys2Proof.Machine.execNop s
  | .keyb imm => Sys2Proof.Machine.execKeyb imm s
  | .datb imm => Sys2Proof.Machine.execDatb imm s
  | .enc => Sys2Proof.Machine.execEnc s
  | .dec => Sys2Proof.Machine.execDec s
  | .ecb => Sys2Proof.Machine.execEcb s
  | .stat => Sys2Proof.Machine.execStat s
  | .rdl => Sys2Proof.Machine.execRdl s
  | .rdb => Sys2Proof.Machine.execRdb s
  | .rwd => Sys2Proof.Machine.execRwd s
  | .clr => Sys2Proof.Machine.execClr s

end Sys2Proof.Machine
end

