-- ==== Sys2Proof/Machine/Agents.lean ====
section
/-! DEFINITION. The steps of the agents: the host's command word, the engine's completion with the random source's answer,
reset, and what happens when the environment does nothing (R7, R44). -/

namespace Sys2Proof.Machine

/-- A HOST step (R59): an illegal word is answered `NAK_ILLEGAL(0)` and changes nothing, busy or idle; a legal one is
executed. -/
def hostStep (c : Word) (s : State) : Host.Outcome State Fault Refusal :=
  match decode c with
  | .error _ => answer s s.engine .nakIllegal
  | .ok i => exec i s

/-- The ENGINE step with the answer `a`, in a state with `BUSY = 1` (R118).
It counts the request if one is made (R119). -/
def completeStep (a : RngAnswer) (s : State) : Host.Outcome State Fault Refusal :=
  match s.engine.op with
  | none => .fault .completeWithoutOperation
  | some k =>
    .next { s with
      engine := s.engine.complete k a
      rngReq := s.rngReq + (s.engine.asksRng k).toNat }

/-- The ENGINE step where the environment schedules it: enabled exactly when `BUSY = 1`, and otherwise no step of the
engine at all (R118; DESIGN CHOICE, safe, assumption log 5). -/
def engineStep (a : RngAnswer) (s : State) : Host.Outcome State Fault Refusal :=
  if s.engine.busy then completeStep a s else .next s

/-- Reset: every element of the engine at its reset value, in any state; an operation in progress is abandoned without a
result, an error or a request (R180, R182).
The capacity and what stands at the ports stay as they are (DEDUCED, safe, assumption log 11). -/
def resetStep (s : State) : Host.Outcome State Fault Refusal :=
  .next { s with engine := Engine.reset }

/-- The environment does nothing more: an operation in progress completes, with an answer of the random source that
nothing fixes (R191); otherwise nothing happens (R7; DESIGN CHOICE, unsafe for a statement that leans on it, assumption
log 4). -/
def quietStep (s : State) : Host.Outcome State Fault Refusal :=
  engineStep (Config.freeRngAnswer s.rngReq) s

/-- The step an event of the environment stands for (R7). -/
def eventStep (ev : Event) (s : State) : Host.Outcome State Fault Refusal :=
  match ev with
  | .command c => hostStep c s
  | .complete a => engineStep a s
  | .reset => resetStep s

end Sys2Proof.Machine
end

