-- ==== Sys2Proof/Machine/Step.lean ====
section
/-! DEFINITION. One step of the machine, the next thing the environment does, and where the host's next command word
stands. -/

namespace Sys2Proof.Machine

/-- One step: the oldest event of the environment's input list is taken off it and happens; with an empty list the
environment is quiet (R7, R44). -/
def step (s : State) : Host.Outcome State Fault Refusal :=
  match s.inputs with
  | [] => quietStep s
  | ev :: rest => eventStep ev { s with inputs := rest }

/-- The state in which the host presents the word of an opcode-table row next (R12, R65: commands arrive on the command
port and are executed on arrival; there is nothing else to fetch). -/
def State.withFetchWord (s : State) (nbits w : Nat) : State :=
  { s with inputs := Event.command (tableWord nbits w) :: s.inputs }

end Sys2Proof.Machine
end

