-- ==== Sys2Proof/Machine/Assembler.lean ====
section
/-! DEFINITION. The text form of host programs: what a line assembles to (R66), the pseudo-instructions (R67), and the
calling sequence of one call as events of the environment (R67, R183). -/

namespace Sys2Proof

/-- The command with a mnemonic and an operand byte; the byte is dropped where the mnemonic takes none. -/
def Mnemonic.command (m : Mnemonic) (imm : Byte) : Instr :=
  match m with
  | .nop => .nop
  | .keyb => .keyb imm
  | .datb => .datb imm
  | .enc => .enc
  | .dec => .dec
  | .ecb => .ecb
  | .stat => .stat
  | .rdl => .rdl
  | .rdb => .rdb
  | .rwd => .rwd
  | .clr => .clr

/-- The word a line assembles to, `OPC * 2^24 + IMM`; an ill-formed line assembles to nothing (R66). -/
def Line.assemble (l : Line) : Option Word :=
  match l.problem with
  | some _ => none
  | none => some (encode (l.mnemonic.command (BitVec.ofNat 8 (l.operand.getD 0))))

/-- `KEY <hex string>`: one KEYB for each byte, in string order (R67). -/
def pseudoKey (bs : List Byte) : List Instr := bs.map .keyb

/-- `DATA <hex string>`: one DATB for each byte, in string order, and nothing for the empty string (R67). -/
def pseudoData (bs : List Byte) : List Instr := bs.map .datb

/-- `READ n`: `n` RDB commands (R67). -/
def pseudoRead (n : Nat) : List Instr := List.replicate n .rdb

/-- `READALL`: RDB until the answer is EMPTY, that is `OLEN - RPTR + 1` RDB commands (R67). -/
def pseudoReadAll (e : Machine.Engine) : List Instr := pseudoRead (e.olen - e.rptr + 1)

/-- `WAIT` where the host happens to issue `n + 1` STAT commands: at least one, and no rule says how many (R67, U10). -/
def pseudoWait (n : Nat) : List Instr := List.replicate (n + 1) .stat

open Machine (Event)

/-- The commands of a host program as words presented on the command port, in order (R65). -/
def presented (is : List Instr) : List Event := is.map fun i => .command (encode i)

/-- The calling sequence of R67 and R183 up to the completion: CLR, the key, the input, the start command, and the
ENGINE step with the random source's answer. -/
def callEvents (start : Instr) (key input : List Byte) (a : RngAnswer) : List Event :=
  presented (.clr :: (pseudoKey key ++ pseudoData input ++ [start])) ++ [.complete a]

end Sys2Proof
end

