-- ==== Sys2Proof/Safety.lean ====
section
/-! DEFINITION. The words claims are stated in: the invariant of the reachable states (R32), what an operation leaves
behind (R120), what a HOST step leaves alone, which responses there are (R62, R63), and what the host cannot see (R166). -/

namespace Sys2Proof

/-- `s[r][c]` of the 4 x 4 state array: byte `r + 4c` of the block (R82). -/
def Block.cell (s : Block) (r c : Nat) : Byte := byteAt s.toBytes (r + 4 * c)

/-- Byte `r` of a word (R83). -/
def AesWord.byte (v : AesWord) (r : Nat) : Byte := byteAt v.toBytes r

namespace Machine

/-- `W`, `FB` and `ST` are all zero (R29, R32 (g)). -/
def Engine.hiddenZero (e : Engine) : Prop :=
  e.w = Vector.replicate 60 .zero ∧ e.fb = .zero ∧ e.st = .zero

/-- The invariant of R32, (a) to (g), in its order; (h) is about one step and is part of `Engine.ended`. -/
structure EngineInv (s : State) : Prop where
  /-- (a) `KEYCNT <= 33`. -/
  keycnt_le : s.engine.keycnt ≤ 33
  /-- (a) `ILEN <= ICAP` and `OLEN <= OCAP`. -/
  mem_wf : s.engine.mem.wf s.icap = true
  /-- (a) `RPTR <= OLEN`. -/
  rptr_le : s.engine.rptr ≤ s.engine.olen
  /-- (b) `BUSY` and `DONE` are never both 1. -/
  not_both : ¬(s.engine.busy = true ∧ s.engine.done = true)
  /-- (c) `ERR != 0` implies `DONE = 1` and `OLEN = 0`. -/
  err_done : s.engine.err ≠ none → s.engine.done = true ∧ s.engine.olen = 0
  /-- (d) what holds while `BUSY = 1`. -/
  busy_clean : s.engine.busy = true →
    s.engine.done = false ∧ s.engine.err = none ∧ s.engine.olen = 0 ∧ s.engine.rptr = 0 ∧ s.engine.op ≠ none
  /-- (e) `DONE = 1` implies `OP != 0`. -/
  done_op : s.engine.done = true → s.engine.op ≠ none
  /-- (f) `IOVF = 1` implies `ILEN = ICAP`. -/
  iovf_full : s.engine.iovf = true → s.engine.ilen = s.icap.val
  /-- (g) the hidden registers are zero. -/
  hidden_zero : s.engine.hiddenZero

/-- The error kind of an outcome, none for a success. -/
def outcomeErr (r : Except ErrKind (List Byte)) : Option ErrKind :=
  match r with
  | .ok _ => none
  | .error k => some k

/-- The readable bytes of an outcome: the whole result, or nothing when the operation failed (R160). -/
def outcomeBytes (r : Except ErrKind (List Byte)) : List Byte :=
  match r with
  | .ok out => out
  | .error _ => []

/-- The engine an operation of kind `k` leaves when its outcome is `r`: everything at its reset value except the outcome
itself, `OP`, `DONE`, `ERR` and the result (R120, R159, R160). -/
def Engine.ended (k : OpKind) (r : Except ErrKind (List Byte)) : Engine :=
  { Engine.reset with
    op   := some k
    done := true
    err  := outcomeErr r
    mem  := { Memory.reset with obuf := outcomeBytes r } }

/-- What no HOST step touches: the capacity, the events still to come, the random source (R130). -/
def State.sameOutside (s t : State) : Prop :=
  t.icap = s.icap ∧ t.inputs = s.inputs ∧ t.rngReq = s.rngReq

/-- The word of a start command's operation: the opposite of `OP <- code` (R140). -/
def OpKind.start : OpKind → Instr
  | .enc => .enc
  | .dec => .dec
  | .ecb => .ecb

/-- A response word of one of the seven kinds: bits 27:16 are zero, the kind is never `0x5` to `0xD`, `VAL` is 0 for the
kinds that carry none and below 256 for DATA (R62, R63, U7). -/
def legalResponse (r : Word) : Prop :=
  r.extractLsb' 16 12 = 0 ∧
  ((r.extractLsb' 28 4 = 0x0 ∧ r.extractLsb' 0 16 = 0) ∨
   (r.extractLsb' 28 4 = 0x1 ∧ r.extractLsb' 8 8 = 0) ∨
   r.extractLsb' 28 4 = 0x2 ∨
   r.extractLsb' 28 4 = 0x3 ∨
   (r.extractLsb' 28 4 = 0x4 ∧ r.extractLsb' 0 16 = 0) ∨
   (r.extractLsb' 28 4 = 0xE ∧ r.extractLsb' 0 16 = 0) ∨
   (r.extractLsb' 28 4 = 0xF ∧ r.extractLsb' 0 16 = 0))

/-- Two engines a host cannot tell apart by one response: the same flags, result and cursor, whatever key and input bytes
and counters they hold (R166). -/
structure SameToHost (d e : Engine) : Prop where
  busy : d.busy = e.busy
  done : d.done = e.done
  iovf : d.iovf = e.iovf
  err  : d.err = e.err
  op   : d.op = e.op
  rptr : d.rptr = e.rptr
  obuf : d.mem.obuf = e.mem.obuf

/-- Two machines that differ at most in secrets: the bytes of the key buffer and of the input buffer and the hidden
registers; the counters agree, since the count of bytes is what the host itself sent (R166). -/
structure LowEq (s t : State) : Prop where
  seen   : SameToHost s.engine t.engine
  keycnt : s.engine.keycnt = t.engine.keycnt
  ilen   : s.engine.ilen = t.engine.ilen
  icap   : s.icap = t.icap
  inputs : s.inputs = t.inputs
  out    : s.out = t.out
  rngReq : s.rngReq = t.rngReq

/-- An event that is not a completion. -/
def Event.isHostOrReset : Event → Bool
  | .command _ => true
  | .complete _ => false
  | .reset => true

end Machine

end Sys2Proof
end

