-- ==== Sys2Proof/Certificates/Slice0/Obligations.lean ====
section
/-! DEFINITION. The statements for the provers, each a rule of the spec or a property of the whole machine. -/

open Sys2Proof Sys2Proof.Machine

/-! ## The command word -/

/-- Every command, with every operand it can carry, is what the decoder reads from its own word
(30_encoding.md sections 1 to 4). -/
def Obligations.DecodeOfEncodeIsTheCommand : Prop :=
  ∀ i : Instr, decode (encode i) = .ok i

/-- A word that decodes to a command is that command's one word, so no two words are the same command
(30_encoding.md sections 1 to 4). -/
def Obligations.EncodeOfDecodeIsTheWord : Prop :=
  ∀ (c : Word) (i : Instr), decode c = .ok i → encode i = c

/-- R58: a word is a row's command exactly when it matches the row under its mask, and it is legal exactly when it matches
some row. -/
def Obligations.OpcodeMapIsTheLegalityTest : Prop :=
  (∀ row ∈ opcodeRows, ∀ c : Word,
    c &&& row.mask = row.pattern ↔ ∃ i, decode c = .ok i ∧ i.mnemonic = row.mnemonic) ∧
  (∀ c : Word, (∃ i, decode c = .ok i) ↔ ∃ row ∈ opcodeRows, c &&& row.mask = row.pattern)

/-- Tests 1 to 3 of R59 in their order: which test refuses which word. -/
def Obligations.DecodeTestsInOrder : Prop :=
  ∀ c : Word,
    let opc := (c.extractLsb' 24 8).toNat
    let rsv := c.extractLsb' 8 16
    let imm := c.extractLsb' 0 8
    let assigned := [0x00, 0x01, 0x02, 0x10, 0x11, 0x12, 0x20, 0x21, 0x22, 0x23, 0x30]
    (decode c = .error .reservedBits ↔ rsv ≠ 0) ∧
    (decode c = .error .reservedOpcode ↔ rsv = 0 ∧ opc ∉ assigned) ∧
    (decode c = .error .strayImmediate ↔ rsv = 0 ∧ opc ∈ assigned ∧ opc ≠ 0x01 ∧ opc ≠ 0x02 ∧ imm ≠ 0)

/-- Words written out from R58, R60 and R61 decode to the commands they stand for, or are refused. -/
def Obligations.WordsWrittenOutDecode : Prop :=
  decode 0x00000000 = .ok .nop ∧ decode 0x010000A5 = .ok (.keyb 0xA5) ∧ decode 0x02000074 = .ok (.datb 0x74) ∧
  decode 0x10000000 = .ok .enc ∧ decode 0x11000000 = .ok .dec ∧ decode 0x12000000 = .ok .ecb ∧
  decode 0x20000000 = .ok .stat ∧ decode 0x21000000 = .ok .rdl ∧ decode 0x22000000 = .ok .rdb ∧
  decode 0x23000000 = .ok .rwd ∧ decode 0x30000000 = .ok .clr ∧
  decode 0x10000001 = .error .strayImmediate ∧ decode 0x01800055 = .error .reservedBits ∧
  decode 0x13000000 = .error .reservedOpcode

/-- The lines of R66: a command's line assembles to its word, and a line assembles to nothing exactly when KEYB or DATB
stands without a byte or another mnemonic stands with an operand. -/
def Obligations.LinesAssembleToTheirWords : Prop :=
  (∀ i : Instr, i.line.assemble = some (encode i)) ∧
  (∀ l : Line, l.assemble = none ↔
    if l.mnemonic = .keyb ∨ l.mnemonic = .datb then ∀ n, l.operand = some n → 256 ≤ n
    else l.operand ≠ none)

/-! ## The response word -/

/-- R62: a response word is made of its kind, twelve zero bits and its value, and its number is
`KIND * 2^28 + VAL`; and every command word is answered by exactly one of them. -/
def Obligations.ResponseWordFormat : Prop :=
  (∀ r : Response,
    r.word.extractLsb' 28 4 = r.kind ∧ r.word.extractLsb' 16 12 = 0 ∧ r.word.extractLsb' 0 16 = r.val ∧
    r.word.toNat = r.kind.toNat * 2 ^ 28 + r.val.toNat) ∧
  (∀ (c : Word) (s : State), ∃ (t : State) (r : Response), hostStep c s = .next t ∧ t.out = s.out ++ [r.word])

/-- Every step from a state whose responses so far are of the seven kinds of R63 leads to such a state (R62, R63, U7). -/
def Obligations.ResponsesStayLegal : Prop :=
  ∀ s t : State, (∀ r ∈ s.out, legalResponse r) → step s = .next t → ∀ r ∈ t.out, legalResponse r

/-- A step on a command word gives exactly one response word, and every other step gives none (R65).
The other steps are the ENGINE step, reset, and the model's own two: the quiet step and a completion scheduled while idle
(assumption log 4 and 5). -/
def Obligations.OneResponseForEachCommand : Prop :=
  ∀ s t : State, step s = .next t →
    (∀ c rest, s.inputs = .command c :: rest → ∃ r, t.out = s.out ++ [r]) ∧
    ((∀ c rest, s.inputs ≠ .command c :: rest) → t.out = s.out)

/-- The layout of `STATUS` (R21): its number, and every bit of it. -/
def Obligations.StatusWordLayout : Prop :=
  ∀ e : Engine,
    e.status.toNat = e.busy.toNat + 2 * e.done.toNat + 4 * e.iovf.toNat + 16 * errCode e.err + 256 * opCode e.op ∧
    e.status.getLsbD 0 = e.busy ∧ e.status.getLsbD 1 = e.done ∧ e.status.getLsbD 2 = e.iovf ∧
    e.status.getLsbD 3 = false ∧ (e.status.extractLsb' 4 4).toNat = errCode e.err ∧
    (e.status.extractLsb' 8 2).toNat = opCode e.op ∧ e.status.extractLsb' 10 6 = 0

/-! ## Steps of the agents -/

/-- A step on a legal command word is the command's HOST step on the state with that word taken off the port (R59). -/
def Obligations.StepRunsTheDecodedCommand : Prop :=
  ∀ (s : State) (c : Word) (rest : List Event) (i : Instr),
    s.inputs = .command c :: rest → decode c = .ok i → step s = exec i { s with inputs := rest }

/-- R157: a refused command sets no bit of `STATUS`, changes no state and leaves `ERR` as it was.
An illegal word is answered NAK_ILLEGAL whether or not the engine is busy, and while it is busy a command other than NOP
and STAT is answered NAK_BUSY. -/
def Obligations.RefusedCommandsChangeNothing : Prop :=
  (∀ (s : State) (c : Word) (rest : List Event) (x : Illegal),
    s.inputs = .command c :: rest → decode c = .error x →
      step s = .next { s with inputs := rest, out := s.out ++ [0xF0000000] }) ∧
  (∀ (s : State) (i : Instr), s.engine.busy = true → i ≠ .nop → i ≠ .stat →
    exec i s = .next { s with out := s.out ++ [0xE0000000] })

/-- R180: reset, in any state, puts every state element at its reset value, and CLR reaches the same engine from any idle
state. -/
def Obligations.ResetEventClearsEverything : Prop :=
  (∀ (s : State) (rest : List Event), s.inputs = .reset :: rest →
    ∃ t, step s = .next t ∧
      (∀ a, a < 32 → memRead t.engine.mem .keybuf a = some 0) ∧ t.engine.keycnt = 0 ∧
      t.engine.ilen = 0 ∧ t.engine.iovf = false ∧ t.engine.olen = 0 ∧ t.engine.rptr = 0 ∧
      t.engine.busy = false ∧ t.engine.done = false ∧ t.engine.err = none ∧ t.engine.op = none ∧
      t.engine.hiddenZero ∧ t.engine.status = 0) ∧
  (∀ (s t : State) (rest : List Event), s.inputs = .reset :: rest → step s = .next t →
    ∀ u : State, u.engine.busy = false → ∃ v, exec .clr u = .next v ∧ v.engine = t.engine)

/-- R31: the table of reset values, which the state after reset has, and equally the engine after a reset event in any
state and after CLR in any idle one. -/
def Obligations.StateAfterReset : Prop :=
  let e := State.reset.engine
  (∀ a, a < 32 → memRead e.mem .keybuf a = some 0) ∧ e.keycnt = 0 ∧ e.ilen = 0 ∧ e.iovf = false ∧
  e.olen = 0 ∧ e.rptr = 0 ∧ e.busy = false ∧ e.done = false ∧ e.err = none ∧ e.op = none ∧ e.status = 0x0000 ∧
  (∀ j, j < 60 → RoundKeys.word e.w j = AesWord.zero) ∧ e.fb = Block.zero ∧ e.st = Block.zero ∧
  (∀ (s : State) (rest : List Event), s.inputs = .reset :: rest →
    ∃ t, step s = .next t ∧ t.engine = e) ∧
  (∀ s : State, s.engine.busy = false →
    exec .clr s = .next { s with
      engine := e
      out := s.out ++ [0x00000000] })

/-- The model's choice (assumption log 4): where the environment's input list is empty, an idle machine stays as it is and
an operation in progress completes with an answer of the random source that nothing fixes. -/
def Obligations.QuietEnvironment : Prop :=
  (∀ s : State, s.inputs = [] → s.engine.busy = false → step s = .next s) ∧
  (∀ (s : State) (k : OpKind), s.inputs = [] → s.engine.busy = true → s.engine.op = some k →
    ∃ a t, step s = .next t ∧ step { s with inputs := [.complete a] } = .next t ∧ t.engine.done = true)

/-! ## The commands that load, read and clear -/

/-- R131: NOP changes nothing and answers ACK in every state, also while busy; it and STAT are the only commands a busy
engine does not refuse, and the all-zero word is NOP. -/
def Obligations.NopDoesNothing : Prop :=
  (∀ s : State, exec .nop s = .next { s with out := s.out ++ [0x00000000] }) ∧
  (∀ (s : State) (i : Instr), s.engine.busy = true →
    exec i s ≠ .next { s with out := s.out ++ [0xE0000000] } → i = .nop ∨ i = .stat) ∧
  decode 0x00000000 = .ok .nop

/-- KEYB while idle (R132): the count goes up to 33 and stays there, the byte lands at the count while that is below 32,
and nothing else changes but the ACK. -/
def Obligations.KeybAppendsToTheKey : Prop :=
  ∀ (b : Byte) (s : State), s.engine.busy = false →
    ∃ t, exec (.keyb b) s = .next t ∧ t.out = s.out ++ [0x00000000] ∧ s.sameOutside t ∧
      (s.engine.keycnt < 32 → t.engine.keycnt = s.engine.keycnt + 1) ∧
      (s.engine.keycnt = 32 → t.engine.keycnt = 33) ∧
      (32 < s.engine.keycnt → t.engine.keycnt = s.engine.keycnt) ∧
      (∀ sp a, memRead t.engine.mem sp a =
        if sp = .keybuf ∧ a = s.engine.keycnt ∧ s.engine.keycnt < 32 then some b else memRead s.engine.mem sp a) ∧
      { t.engine with mem := s.engine.mem, keycnt := s.engine.keycnt } = s.engine

/-- DATB while idle (R133): the byte lands at the end of the input while there is room, otherwise the overflow flag is
set; nothing else changes but the ACK. -/
def Obligations.DatbAppendsToTheInput : Prop :=
  ∀ (b : Byte) (s : State), s.engine.busy = false →
    ∃ t, exec (.datb b) s = .next t ∧ t.out = s.out ++ [0x00000000] ∧ s.sameOutside t ∧
      (s.engine.ilen < s.icap.val → t.engine.ilen = s.engine.ilen + 1 ∧ t.engine.iovf = s.engine.iovf) ∧
      (s.icap.val ≤ s.engine.ilen → t.engine.ilen = s.engine.ilen ∧ t.engine.iovf = true) ∧
      (∀ sp a, memRead t.engine.mem sp a =
        if sp = .ibuf ∧ a = s.engine.ilen ∧ s.engine.ilen < s.icap.val then some b else memRead s.engine.mem sp a) ∧
      { t.engine with mem := s.engine.mem, iovf := s.engine.iovf } = s.engine

/-- STAT in every state, busy or idle (R134): the answer is the status value and nothing else changes. -/
def Obligations.StatReadsTheStatus : Prop :=
  ∀ s : State,
    let status := s.engine.busy.toNat + 2 * s.engine.done.toNat + 4 * s.engine.iovf.toNat +
      16 * errCode s.engine.err + 256 * opCode s.engine.op
    exec .stat s = .next { s with out := s.out ++ [BitVec.ofNat 32 (0x20000000 + status)] }

/-- The status values of R134 in the states of the invariant: while busy, after completion, before any operation. -/
def Obligations.ReachableStatusValues : Prop :=
  ∀ s : State, EngineInv s →
    let e := s.engine
    (e.busy = true → e.status.toNat = 0x0001 + 4 * e.iovf.toNat + 256 * opCode e.op ∧ 1 ≤ opCode e.op) ∧
    (e.done = true →
      e.status.toNat = 0x0002 + 4 * e.iovf.toNat + 256 * opCode e.op + 16 * errCode e.err ∧ 1 ≤ opCode e.op) ∧
    (e.busy = false → e.done = false → e.op = none → e.status.toNat = 0x0000 ∨ e.status.toNat = 0x0004)

/-- RDL while idle, for a result within its capacity (R135): the answer is `OLEN` and nothing else changes.
The premise holds in every state of the invariant; what a longer result would answer is the model's choice (assumption
log 12). -/
def Obligations.RdlReadsTheLength : Prop :=
  ∀ s : State, s.engine.busy = false → s.engine.olen ≤ s.icap.ocap →
    exec .rdl s = .next { s with out := s.out ++ [BitVec.ofNat 32 (0x30000000 + s.engine.olen)] }

/-- RDB while idle (R136): below `OLEN` the answer is the byte under the cursor, which moves by one; at `OLEN` and above
the answer is EMPTY; nothing else changes. -/
def Obligations.RdbReadsTheNextByte : Prop :=
  ∀ s : State, s.engine.busy = false →
    (s.engine.rptr < s.engine.olen →
      ∃ v, memRead s.engine.mem .obuf s.engine.rptr = some v ∧
        exec .rdb s = .next { s with
          engine := { s.engine with rptr := s.engine.rptr + 1 }
          out := s.out ++ [BitVec.ofNat 32 (0x10000000 + v.toNat)] }) ∧
    (s.engine.olen ≤ s.engine.rptr → exec .rdb s = .next { s with out := s.out ++ [0x40000000] })

/-- R137: RWD puts the cursor back to the first byte, also when there is no result, and RDB then starts again; while busy
it is refused. -/
def Obligations.RwdRewinds : Prop :=
  (∀ s : State, s.engine.busy = true → exec .rwd s = .next { s with out := s.out ++ [0xE0000000] }) ∧
  ∀ s : State, s.engine.busy = false →
    exec .rwd s = .next { s with
      engine := { s.engine with rptr := 0 }
      out := s.out ++ [0x00000000] } ∧
    (∀ t, exec .rwd s = .next t →
      (t.engine.olen = 0 → exec .rdb t = .next { t with out := t.out ++ [0x40000000] }) ∧
      (∀ v, memRead t.engine.mem .obuf 0 = some v →
        ∃ u, exec .rdb t = .next u ∧ u.out = t.out ++ [BitVec.ofNat 32 (0x10000000 + v.toNat)]))

/-- CLR while idle (R138): the engine is the reset engine, every bit of `STATUS` is zero, and nothing outside it changes
but the ACK. -/
def Obligations.ClrReturnsToReset : Prop :=
  ∀ s : State, s.engine.busy = false →
    ∃ t, exec .clr s = .next t ∧ t.out = s.out ++ [0x00000000] ∧ s.sameOutside t ∧
      t.engine = State.reset.engine ∧ t.engine.status = 0x0000 ∧
      (∀ a, a < 32 → memRead t.engine.mem .keybuf a = some 0) ∧
      (∀ a, memRead t.engine.mem .ibuf a = none ∧ memRead t.engine.mem .obuf a = none)

/-- What a command can change at all (the writes of R33): the key, the input, the result, the cursor, the flags and the
hidden registers each change only under the commands named; the rest of the state never does. -/
def Obligations.CommandsWriteOnlyTheirOwn : Prop :=
  ∀ (i : Instr) (s t : State), exec i s = .next t →
    s.sameOutside t ∧
    ((∀ b, i ≠ .keyb b) → i ≠ .clr →
      t.engine.keycnt = s.engine.keycnt ∧ ∀ a, memRead t.engine.mem .keybuf a = memRead s.engine.mem .keybuf a) ∧
    ((∀ b, i ≠ .datb b) → i ≠ .clr →
      t.engine.iovf = s.engine.iovf ∧ ∀ a, memRead t.engine.mem .ibuf a = memRead s.engine.mem .ibuf a) ∧
    ((∀ k : OpKind, i ≠ k.start) → i ≠ .clr →
      t.engine.busy = s.engine.busy ∧ t.engine.done = s.engine.done ∧ t.engine.err = s.engine.err ∧
      t.engine.op = s.engine.op ∧ ∀ a, memRead t.engine.mem .obuf a = memRead s.engine.mem .obuf a) ∧
    ((∀ k : OpKind, i ≠ k.start) → i ≠ .rdb → i ≠ .rwd → i ≠ .clr → t.engine.rptr = s.engine.rptr) ∧
    (i ≠ .clr → t.engine.w = s.engine.w ∧ t.engine.fb = s.engine.fb ∧ t.engine.st = s.engine.st)

/-- The whole read-out: from an idle state with the cursor inside the result, READALL is answered by the bytes from the
cursor on, one DATA each, and then EMPTY (R67, R136). -/
def Obligations.ReadAllGivesTheResult : Prop :=
  ∀ s : State, s.engine.busy = false → s.engine.rptr ≤ s.engine.olen →
    s.inputs = presented (pseudoReadAll s.engine) →
    ∃ t : State, Sys2Proof.core.run s.inputs.length s = .next t ∧
      t.out = s.out ++ ((s.engine.result.drop s.engine.rptr).map fun v => BitVec.ofNat 32 (0x10000000 + v.toNat)) ++
        [0x40000000] ∧
      t.engine = { s.engine with rptr := s.engine.olen }

/-! ## Starting an operation and the busy window -/

/-- ENC, DEC and ECB while idle (R140): the operation is latched, the previous result dropped, the key and the input left
as loaded, and the answer is ACK whatever is loaded. -/
def Obligations.StartCommandsLatchTheOperation : Prop :=
  ∀ s : State, s.engine.busy = false →
    let started := fun k : OpKind => { s with
      engine := { s.engine with
        op := some k, busy := true, done := false, err := none, rptr := 0
        mem := { s.engine.mem with obuf := [] } }
      out := s.out ++ [0x00000000] }
    exec .enc s = .next (started .enc) ∧ exec .dec s = .next (started .dec) ∧ exec .ecb s = .next (started .ecb) ∧
    (∀ k, (started k).engine.status.toNat = 0x0001 + 4 * s.engine.iovf.toNat + 256 * k.code)

/-- Whatever words the host sends in the busy window, the engine is the same at its end, and the completion that follows
ends the operation (R139, R191): the operation computes on exactly what the start command found. -/
def Obligations.BusyWindowChangesNothingAndCloses : Prop :=
  ∀ (s : State) (k : OpKind) (words : List Word) (a : RngAnswer) (rest : List Event),
    s.engine.busy = true → s.engine.op = some k →
    s.inputs = words.map Event.command ++ .complete a :: rest →
    (∃ t : State, Sys2Proof.core.run words.length s = .next t ∧ t.engine = s.engine ∧ t.rngReq = s.rngReq) ∧
    (∃ u : State, Sys2Proof.core.run (words.length + 1) s = .next u ∧ u.inputs = rest ∧
      u.engine = s.engine.complete k a ∧ u.engine.busy = false ∧ u.engine.done = true)

/-- `BUSY` and `DONE` over any step (R22, R23): only a start command sets `BUSY`, only the ENGINE step or reset clears it,
and only the ENGINE step of an operation in progress sets `DONE`.
That the ENGINE step also happens where the input list is empty is the model's choice (assumption log 4). -/
def Obligations.OnlyTheirEventsChangeBusyAndDone : Prop :=
  ∀ s t : State, step s = .next t →
    (s.engine.busy = false → t.engine.busy = true →
      ∃ (k : OpKind) (rest : List Event), s.inputs = .command (encode k.start) :: rest ∧ t.engine.op = some k) ∧
    (s.engine.busy = true → t.engine.busy = false →
      s.inputs = [] ∨ (∃ a rest, s.inputs = .complete a :: rest) ∨ (∃ rest, s.inputs = .reset :: rest)) ∧
    (s.engine.done = false → t.engine.done = true →
      s.engine.busy = true ∧ (s.inputs = [] ∨ ∃ a rest, s.inputs = .complete a :: rest)) ∧
    (s.engine.done = true → t.engine.done = false →
      (∃ rest, s.inputs = .reset :: rest) ∨
      ∃ i rest, s.inputs = .command (encode i) :: rest ∧ (i = .clr ∨ ∃ k : OpKind, i = k.start))

/-! ## Completing an operation -/

/-- CompleteENC with a key of 32 bytes and no overflow is the document's `encrypt` of what is loaded, with one request to
the random source; the engine keeps nothing but the outcome (R121, R110, R120). -/
def Obligations.EncCompletesAsEncrypt : Prop :=
  ∀ (s : State) (a : RngAnswer) (rest : List Event),
    s.inputs = .complete a :: rest → s.engine.busy = true → s.engine.op = some .enc →
    s.engine.keycnt = 32 → s.engine.iovf = false →
    step s = .next { s with
      inputs := rest
      engine := Engine.ended .enc (encrypt s.engine.key a s.engine.input)
      rngReq := s.rngReq + 1 }

/-- CompleteDEC with a key of 32 bytes and no overflow is the document's `decrypt` of what is loaded, with no request to the
random source (R122, R111, R120). -/
def Obligations.DecCompletesAsDecrypt : Prop :=
  ∀ (s : State) (a : RngAnswer) (rest : List Event),
    s.inputs = .complete a :: rest → s.engine.busy = true → s.engine.op = some .dec →
    s.engine.keycnt = 32 → s.engine.iovf = false →
    step s = .next { s with
      inputs := rest
      engine := Engine.ended .dec (decrypt s.engine.key s.engine.input) }

/-- CompleteECB with a key of 32 bytes, no overflow and an input of 16 bytes is one application of the block cipher (R94,
R75). -/
def Obligations.EcbCompletesAsBlockEncrypt : Prop :=
  ∀ (s : State) (a : RngAnswer) (rest : List Event),
    s.inputs = .complete a :: rest → s.engine.busy = true → s.engine.op = some .ecb →
    s.engine.keycnt = 32 → s.engine.iovf = false → s.engine.ilen = 16 →
    step s = .next { s with
      inputs := rest
      engine := Engine.ended .ecb (.ok (blockEncrypt s.engine.key (Block.ofBytes s.engine.input)).toBytes) }

/-- R158, its first three places and the fourth: the error an operation reports when several causes hold at once.
The padding error comes last, since it is what `decrypt` of well-framed input can still report. -/
def Obligations.ErrorsInPriorityOrder : Prop :=
  ∀ (s : State) (k : OpKind) (a : RngAnswer) (rest : List Event),
    s.inputs = .complete a :: rest → s.engine.busy = true → s.engine.op = some k →
    ∃ t, step s = .next t ∧
      (s.engine.keycnt ≠ 32 → t.engine.err = some .invalidKeyLength) ∧
      (s.engine.keycnt = 32 → s.engine.iovf = true → t.engine.err = some .inputOverflow) ∧
      (s.engine.keycnt = 32 → s.engine.iovf = false →
        (k = .dec → ¬(16 ≤ s.engine.ilen ∧ (s.engine.ilen - 16) % 16 = 0) →
          t.engine.err = some .invalidCiphertextFraming) ∧
        (k = .dec → 16 ≤ s.engine.ilen → (s.engine.ilen - 16) % 16 = 0 →
          t.engine.err = none ∨ t.engine.err = some .paddingError) ∧
        (k = .ecb → t.engine.err = if s.engine.ilen = 16 then none else some .invalidBlockLength) ∧
        (k = .enc → t.engine.err = if a = .unavailable then some .randomSourceUnavailable else none))

/-- An operation leaves nothing but its outcome (R120, R159, R160): the key, the input, their counters, the overflow flag
and the hidden registers are zero, and there is a result only if there is no error. -/
def Obligations.CompletionLeavesOnlyTheOutcome : Prop :=
  ∀ (s : State) (k : OpKind) (a : RngAnswer) (rest : List Event),
    s.inputs = .complete a :: rest → s.engine.busy = true → s.engine.op = some k →
    ∃ t, step s = .next t ∧ t.icap = s.icap ∧ t.inputs = rest ∧ t.out = s.out ∧
      (∀ i, i < 32 → memRead t.engine.mem .keybuf i = some 0) ∧ t.engine.keycnt = 0 ∧
      t.engine.ilen = 0 ∧ t.engine.iovf = false ∧ t.engine.hiddenZero ∧ t.engine.rptr = 0 ∧
      t.engine.busy = false ∧ t.engine.done = true ∧ t.engine.op = some k ∧
      (t.engine.err ≠ none → t.engine.olen = 0)

/-- The random source over any step: it is asked at most once, and only in the ENGINE step of an ENC that has passed the key
test and the overflow test (R119).
Two clauses are the model's: that the ENGINE step also happens where the input list is empty (DESIGN CHOICE, assumption
log 4), and that an ENC abandoned by reset counts no request (DEDUCED, assumption log 7). -/
def Obligations.RandomSourceAskedOnlyByEnc : Prop :=
  ∀ s t : State, step s = .next t →
    let asked := s.engine.busy = true ∧ s.engine.op = some .enc ∧ s.engine.keycnt = 32 ∧ s.engine.iovf = false ∧
      (s.inputs = [] ∨ ∃ a rest, s.inputs = .complete a :: rest)
    (asked → t.rngReq = s.rngReq + 1) ∧ (¬asked → t.rngReq = s.rngReq)

/-- The IV is the random source's answer exactly as delivered, and the first sixteen bytes of the result (R119, R48). -/
def Obligations.IvIsTheAnswerAsDelivered : Prop :=
  ∀ (s : State) (iv : Block) (rest : List Event),
    s.inputs = .complete (.bytes iv) :: rest → s.engine.busy = true → s.engine.op = some .enc →
    s.engine.keycnt = 32 → s.engine.iovf = false →
    ∃ t, step s = .next t ∧ t.engine.err = none ∧
      ∀ i, i < 16 → memRead t.engine.mem .obuf i = some (byteAt iv.toBytes i)

/-- The calling sequence of R67 and R183 from any idle state: loading any key and any input that fits and starting ENC or
DEC leaves the outcome of the document's function on that key and that input; an input that does not fit ends in
InputOverflow, after the key test. -/
def Obligations.CallSequenceIsTheFunction : Prop :=
  ∀ (s : State) (key input : List Byte) (a : RngAnswer), s.engine.busy = false →
    let run := fun k : OpKind =>
      let evs := callEvents k.start key input a
      Sys2Proof.core.run evs.length { s with inputs := evs }
    let tooLong : Except ErrKind (List Byte) :=
      .error (if key.length = 32 then .inputOverflow else .invalidKeyLength)
    (∃ t : State, run .enc = .next t ∧ t.engine =
      Engine.ended .enc (if input.length ≤ s.icap.val then encrypt key a input else tooLong)) ∧
    (∃ t : State, run .dec = .next t ∧ t.engine =
      Engine.ended .dec (if input.length ≤ s.icap.val then decrypt key input else tooLong)) ∧
    (∃ t : State, run .ecb = .next t ∧ t.engine =
      Engine.ended .ecb (if input.length ≤ s.icap.val then
        if key.length ≠ 32 then .error .invalidKeyLength
        else if input.length ≠ 16 then .error .invalidBlockLength
        else .ok (blockEncrypt key (Block.ofBytes input)).toBytes
      else tooLong))

/-! ## The block core -/

/-- R78: `xtime` on every byte. -/
def Obligations.XtimeIsShiftAndReduce : Prop :=
  ∀ b : Byte, (xtime b).toNat = Nat.xor (b.toNat * 2 % 256) (if b.getLsbD 7 then 0x1B else 0x00)

/-- R79: the laws of the field multiplication, and the three multipliers the cipher uses. -/
def Obligations.GmulIsFieldMultiplication : Prop :=
  (∀ a b : Byte, gmul a b = gmul b a) ∧
  (∀ a b c : Byte, gmul (gmul a b) c = gmul a (gmul b c)) ∧
  (∀ a b c : Byte, gmul a (b ^^^ c) = gmul a b ^^^ gmul a c) ∧
  (∀ a : Byte, gmul a 0x01 = a ∧ gmul a 0x00 = 0x00) ∧
  (∀ a : Byte, a ≠ 0x00 → ∃ t, gmul a t = 0x01 ∧ ∀ u, gmul a u = 0x01 → u = t) ∧
  (∀ v : Byte, gmul 0x01 v = v ∧ gmul 0x02 v = xtime v ∧ gmul 0x03 v = xtime v ^^^ v) ∧
  gmul 0x57 0x83 = 0xC1 ∧ gmul 0x57 0x13 = 0xFE ∧ gmul 0x53 0xCA = 0x01

/-- R81: every entry of the S-box is the affine map of the field inverse of its index. -/
def Obligations.SboxIsAffineOfInverse : Prop :=
  ∀ v t : Byte, (if v = 0x00 then t = 0x00 else gmul v t = 0x01) → ∀ i, i < 8 →
    (sbox v).getLsbD i =
      (t.getLsbD i ^^ t.getLsbD ((i + 4) % 8) ^^ t.getLsbD ((i + 5) % 8) ^^ t.getLsbD ((i + 6) % 8) ^^
        t.getLsbD ((i + 7) % 8) ^^ (0x63 : Byte).getLsbD i)

/-- R84 to R87: the four transformations by row and column of the state array. -/
def Obligations.TransformationsByRowAndColumn : Prop :=
  ∀ (s : Block) (w : RoundKeys) (round r c : Nat), r < 4 → c < 4 →
    (subBytes s).cell r c = sbox (s.cell r c) ∧
    (shiftRows s).cell r c = s.cell r ((c + r) % 4) ∧
    (addRoundKey w round s).cell r c = s.cell r c ^^^ (w.word (4 * round + c)).byte r ∧
    (mixColumns s).cell 0 c = gmul 0x02 (s.cell 0 c) ^^^ gmul 0x03 (s.cell 1 c) ^^^ s.cell 2 c ^^^ s.cell 3 c ∧
    (mixColumns s).cell 1 c = s.cell 0 c ^^^ gmul 0x02 (s.cell 1 c) ^^^ gmul 0x03 (s.cell 2 c) ^^^ s.cell 3 c ∧
    (mixColumns s).cell 2 c = s.cell 0 c ^^^ s.cell 1 c ^^^ gmul 0x02 (s.cell 2 c) ^^^ gmul 0x03 (s.cell 3 c) ∧
    (mixColumns s).cell 3 c = gmul 0x03 (s.cell 0 c) ^^^ s.cell 1 c ^^^ s.cell 2 c ^^^ gmul 0x02 (s.cell 3 c)

/-- R88, R89, R90: the seven round constants, the two functions on words, and the key schedule: the eight words of the key,
and the recurrence of every later word with its three cases. -/
def Obligations.KeyExpansionRecurrence : Prop :=
  ([1, 2, 3, 4, 5, 6, 7].map rcon =
    [⟨0x01, 0x00, 0x00, 0x00⟩, ⟨0x02, 0x00, 0x00, 0x00⟩, ⟨0x04, 0x00, 0x00, 0x00⟩, ⟨0x08, 0x00, 0x00, 0x00⟩,
     ⟨0x10, 0x00, 0x00, 0x00⟩, ⟨0x20, 0x00, 0x00, 0x00⟩, ⟨0x40, 0x00, 0x00, 0x00⟩]) ∧
  (∀ a b c d : Byte, rotWord ⟨a, b, c, d⟩ = ⟨b, c, d, a⟩ ∧ subWord ⟨a, b, c, d⟩ = ⟨sbox a, sbox b, sbox c, sbox d⟩) ∧
  ∀ key : List Byte, key.length = 32 →
    let w := (keyExpansion key).word
    (∀ i, i < 8 → w i =
      ⟨byteAt key (4 * i), byteAt key (4 * i + 1), byteAt key (4 * i + 2), byteAt key (4 * i + 3)⟩) ∧
    (∀ i, 8 ≤ i → i < 60 →
      w i = (w (i - 8)).xor
        (if i % 8 = 0 then (subWord (rotWord (w (i - 1)))).xor (rcon (i / 8))
         else if i % 8 = 4 then subWord (w (i - 1))
         else w (i - 1)))

/-- R92 (b): under fixed round keys the cipher sends different blocks to different blocks, and every block is the cipher of
some block. -/
def Obligations.CipherIsAPermutation : Prop :=
  ∀ w : RoundKeys,
    (∀ x y : Block, cipher w x = cipher w y → x = y) ∧ (∀ y : Block, ∃ x : Block, cipher w x = y)

/-! ## The chaining engine -/

/-- R101 and R102: a padded sequence is the sequence and `N` bytes of value `N`, between 1 and 16 of them, up to the next
multiple of 16. -/
def Obligations.PadFillsUpToABlock : Prop :=
  ∀ p : List Byte, ∃ n, 1 ≤ n ∧ n ≤ 16 ∧ n = 16 - p.length % 16 ∧
    pad p = p ++ List.replicate n (BitVec.ofNat 8 n) ∧
    (pad p).length = 16 * (p.length / 16 + 1) ∧ p.length < (pad p).length ∧ (pad p).length ≤ p.length + 16

/-- R103: on a sequence of whole blocks `Unpad` succeeds exactly when the sequence ends in `N` bytes of value `N` with
`1 <= N <= 16`, gives what stands before them, and otherwise reports the padding error. -/
def Obligations.UnpadStripsExactlyThePadding : Prop :=
  ∀ x : List Byte, 16 ∣ x.length →
    (∀ p, unpad x = .ok p ↔ ∃ n, 1 ≤ n ∧ n ≤ 16 ∧ x = p ++ List.replicate n (BitVec.ofNat 8 n)) ∧
    (∀ k, unpad x = .error k → k = .paddingError)

/-- R104: `Unpad` undoes `Pad`; on whole blocks `Pad` undoes `Unpad` where it succeeds and nothing of the kind holds where
it does not; and `Unpad` is not injective on arbitrary whole blocks. -/
def Obligations.UnpadUndoesPad : Prop :=
  (∀ p : List Byte, unpad (pad p) = .ok p) ∧
  (∀ x p : List Byte, 16 ∣ x.length → unpad x = .ok p → pad p = x) ∧
  (∃ x y : List Byte, 16 ∣ x.length ∧ 16 ∣ y.length ∧ x ≠ y ∧ unpad x = unpad y)

/-- R105 and R106: block `i` of the ciphertext is block `i` of the text with the cipher of the ciphertext block before it
(the IV before the first), and the inverse chain uses the same direction of the cipher on the same feedback. -/
def Obligations.FeedbackChainBlockByBlock : Prop :=
  ∀ (w : RoundKeys) (iv : Block) (xs : List Block),
    let f := cipher w
    let cs := cfbEncBlocks f iv xs
    let ys := cfbDecBlocks f iv xs
    cs.length = xs.length ∧ ys.length = xs.length ∧
    (∀ x, xs[0]? = some x → cs[0]? = some (x.xor (f iv)) ∧ ys[0]? = some (x.xor (f iv))) ∧
    (∀ i x c d, xs[i + 1]? = some x → cs[i]? = some c → xs[i]? = some d →
      cs[i + 1]? = some (x.xor (f c)) ∧ ys[i + 1]? = some (x.xor (f d)))

/-- R107: whole-block feedback decryption undoes encryption, for any block function in the place of the cipher, and so for
the cipher on every sequence of whole blocks. -/
def Obligations.FeedbackDecryptionUndoesEncryption : Prop :=
  (∀ (f : Block → Block) (iv : Block) (xs : List Block), cfbDecBlocks f iv (cfbEncBlocks f iv xs) = xs) ∧
  (∀ (w : RoundKeys) (iv : Block) (x : List Byte), 16 ∣ x.length → cfbDec w iv (cfbEnc w iv x) = x)

/-- R109: `decrypt` under a key of the right length reports a framing error exactly for the lengths that are not a multiple
of 16 or are below 16. -/
def Obligations.FramingErrorExactly : Prop :=
  ∀ key blob : List Byte, key.length = 32 →
    (decrypt key blob = .error .invalidCiphertextFraming ↔ ¬(16 ≤ blob.length ∧ (blob.length - 16) % 16 = 0)) ∧
    ((16 ≤ blob.length ∧ (blob.length - 16) % 16 = 0) ↔ (16 ∣ blob.length ∧ 16 ≤ blob.length)) ∧
    (blob.length = 16 → decrypt key blob = .error .paddingError)

/-- R113: the length of a blob and of a recovered plaintext, and that both fit the output buffer. -/
def Obligations.BlobLength : Prop :=
  (∀ (key p blob : List Byte) (iv : Block), encrypt key (.bytes iv) p = .ok blob →
    blob.length = 16 + 16 * (p.length / 16 + 1) ∧ blob.length = 32 + 16 * (p.length / 16) ∧ 32 ≤ blob.length ∧
    16 ∣ blob.length ∧ framingOk blob.length = true ∧ p.length + 17 ≤ blob.length ∧ blob.length ≤ p.length + 32 ∧
    ∀ cap : Capacity, p.length ≤ cap.val → blob.length ≤ cap.ocap) ∧
  (∀ key p blob : List Byte, decrypt key blob = .ok p →
    blob.length ≤ p.length + 32 ∧ p.length + 17 ≤ blob.length ∧
    ∀ cap : Capacity, blob.length ≤ cap.val → p.length ≤ cap.ocap)

/-- R112: decrypting what was encrypted gives the plaintext back, for every key of 32 bytes, every answer of the random
source and every plaintext, the empty one included. -/
def Obligations.DecryptUndoesEncrypt : Prop :=
  ∀ (key p : List Byte) (iv : Block), key.length = 32 →
    ∃ blob, encrypt key (.bytes iv) p = .ok blob ∧ decrypt key blob = .ok p

/-- R114: a blob that decrypts, with exactly one bit of its ciphertext part flipped, never decrypts to the same plaintext:
it gives the padding error or another plaintext.
It does not say that the flip is detected: the other plaintext is reported as a success (R189). -/
def Obligations.FlippedBitNeverReproducesThePlaintext : Prop :=
  ∀ (key blob p : List Byte) (i j : Nat) (b : Byte), decrypt key blob = .ok p → 16 ≤ i → blob[i]? = some b → j < 8 →
    decrypt key (blob.set i (b ^^^ BitVec.ofNat 8 (2 ^ j))) = .error .paddingError ∨
    ∃ q, decrypt key (blob.set i (b ^^^ BitVec.ofNat 8 (2 ^ j))) = .ok q ∧ q ≠ p

/-- R116, its exact part: two different answers of the random source give blobs that differ in their first 16 bytes, and
both decrypt to the plaintext. -/
def Obligations.DifferentIvsGiveDifferentBlobs : Prop :=
  ∀ (key p : List Byte) (iv jv : Block), key.length = 32 → iv ≠ jv →
    ∃ blob blob', encrypt key (.bytes iv) p = .ok blob ∧ encrypt key (.bytes jv) p = .ok blob' ∧
      blob.take 16 ≠ blob'.take 16 ∧ decrypt key blob = .ok p ∧ decrypt key blob' = .ok p

/-! ## The whole machine -/

/-- The state after reset meets the invariant of R32. -/
def Obligations.ResetMeetsTheInvariant : Prop := EngineInv State.reset

/-- R32: every step from a state that meets the invariant leads to one that does, the model's own quiet step and skipped
completion included (assumption log 4 and 5). -/
def Obligations.StepKeepsTheInvariant : Prop :=
  ∀ s t : State, EngineInv s → step s = .next t → EngineInv t

/-- From every state that meets the invariant the machine steps on: nothing is refused, nothing faults, and there is no
halt (R162, R192).
The steps include the model's own two, the quiet step and a completion scheduled while idle (assumption log 4 and 5). -/
def Obligations.MachineNeverStops : Prop :=
  ∀ s : State, EngineInv s → ∃ t, step s = .next t

/-- R166: two engines that agree in their flags, their result and their cursor give the same response to every word, legal
or not, whatever key, input, counters and hidden registers they hold. -/
def Obligations.ResponsesRevealNoSecret : Prop :=
  ∀ (s t : State) (c : Word), SameToHost s.engine t.engine →
    ∃ s' t' r, hostStep c s = .next s' ∧ hostStep c t = .next t' ∧ s'.out = s.out ++ [r] ∧ t'.out = t.out ++ [r]

/-- R166 over a whole run: two machines that differ at most in the bytes of their keys and inputs stay so, with the same
responses throughout, as long as no operation completes. -/
def Obligations.SecretsStayHiddenUntilCompletion : Prop :=
  ∀ (s t : State) (n : Nat), LowEq s t → (∀ ev ∈ s.inputs, ev.isHostOrReset = true) → n ≤ s.inputs.length →
    ∃ s' t' : State, Sys2Proof.core.run n s = .next s' ∧ Sys2Proof.core.run n t = .next t' ∧ LowEq s' t'

/-- A failed operation reveals nothing but its error: two engines of any contents that fail with the same error under the
same operation are left equal (R160, R166). -/
def Obligations.FailuresRevealOnlyTheirKind : Prop :=
  ∀ (d e : Engine) (k : OpKind) (a b : RngAnswer), d.op = some k → e.op = some k →
    (d.complete k a).err ≠ none → (d.complete k a).err = (e.complete k b).err → d.complete k a = e.complete k b

/-- The model's deduction (assumption log 11, DEDUCED from R180, R30 and R182): a reset event changes nothing outside the
engine; the capacity, the later events, the responses already given and the count of requests stay as they are. -/
def Obligations.ResetEventTouchesOnlyTheEngine : Prop :=
  ∀ (s : State) (rest : List Event), s.inputs = .reset :: rest →
    step s = .next { s with
      inputs := rest
      engine := State.reset.engine }
end

