-- ==== Sys2Proof/Laws/State.lean ====
section
/-! SUPPORT. What each named update of the state does to each field, so that no later proof unfolds one. -/

namespace Sys2Proof.Machine

/-! A response (`State.respond`). -/

@[simp] theorem State.respond_icap (s : State) (r : Response) : (s.respond r).icap = s.icap := rfl
@[simp] theorem State.respond_engine (s : State) (r : Response) : (s.respond r).engine = s.engine := rfl
@[simp] theorem State.respond_inputs (s : State) (r : Response) : (s.respond r).inputs = s.inputs := rfl
@[simp] theorem State.respond_out (s : State) (r : Response) : (s.respond r).out = s.out ++ [r.word] := rfl
@[simp] theorem State.respond_rngReq (s : State) (r : Response) : (s.respond r).rngReq = s.rngReq := rfl

/-! A command word placed first on the command port (`State.withFetchWord`). -/

@[simp] theorem State.withFetchWord_icap (s : State) (n w : Nat) : (s.withFetchWord n w).icap = s.icap := rfl
@[simp] theorem State.withFetchWord_engine (s : State) (n w : Nat) : (s.withFetchWord n w).engine = s.engine := rfl
@[simp] theorem State.withFetchWord_inputs (s : State) (n w : Nat) :
    (s.withFetchWord n w).inputs = .command (tableWord n w) :: s.inputs := rfl
@[simp] theorem State.withFetchWord_out (s : State) (n w : Nat) : (s.withFetchWord n w).out = s.out := rfl
@[simp] theorem State.withFetchWord_rngReq (s : State) (n w : Nat) : (s.withFetchWord n w).rngReq = s.rngReq := rfl

/-! The buffers. -/

@[simp] theorem Memory.clearKey_keybuf (m : Memory) : m.clearKey.keybuf = Vector.replicate 32 0 := rfl
@[simp] theorem Memory.clearKey_ibuf (m : Memory) : m.clearKey.ibuf = m.ibuf := rfl
@[simp] theorem Memory.clearKey_obuf (m : Memory) : m.clearKey.obuf = m.obuf := rfl
@[simp] theorem Memory.clearInput_keybuf (m : Memory) : m.clearInput.keybuf = m.keybuf := rfl
@[simp] theorem Memory.clearInput_ibuf (m : Memory) : m.clearInput.ibuf = [] := rfl
@[simp] theorem Memory.clearInput_obuf (m : Memory) : m.clearInput.obuf = m.obuf := rfl
@[simp] theorem Memory.clearOutput_keybuf (m : Memory) : m.clearOutput.keybuf = m.keybuf := rfl
@[simp] theorem Memory.clearOutput_ibuf (m : Memory) : m.clearOutput.ibuf = m.ibuf := rfl
@[simp] theorem Memory.clearOutput_obuf (m : Memory) : m.clearOutput.obuf = [] := rfl

/-! The flags a start command writes. -/

@[simp] theorem Engine.flagsOnStart_mem (e : Engine) (k : OpKind) : (e.flagsOnStart k).mem = e.mem := rfl
@[simp] theorem Engine.flagsOnStart_keycnt (e : Engine) (k : OpKind) : (e.flagsOnStart k).keycnt = e.keycnt := rfl
@[simp] theorem Engine.flagsOnStart_iovf (e : Engine) (k : OpKind) : (e.flagsOnStart k).iovf = e.iovf := rfl
@[simp] theorem Engine.flagsOnStart_rptr (e : Engine) (k : OpKind) : (e.flagsOnStart k).rptr = e.rptr := rfl
@[simp] theorem Engine.flagsOnStart_busy (e : Engine) (k : OpKind) : (e.flagsOnStart k).busy = true := rfl
@[simp] theorem Engine.flagsOnStart_done (e : Engine) (k : OpKind) : (e.flagsOnStart k).done = false := rfl
@[simp] theorem Engine.flagsOnStart_err (e : Engine) (k : OpKind) : (e.flagsOnStart k).err = none := rfl
@[simp] theorem Engine.flagsOnStart_op (e : Engine) (k : OpKind) : (e.flagsOnStart k).op = some k := rfl
@[simp] theorem Engine.flagsOnStart_w (e : Engine) (k : OpKind) : (e.flagsOnStart k).w = e.w := rfl
@[simp] theorem Engine.flagsOnStart_fb (e : Engine) (k : OpKind) : (e.flagsOnStart k).fb = e.fb := rfl
@[simp] theorem Engine.flagsOnStart_st (e : Engine) (k : OpKind) : (e.flagsOnStart k).st = e.st := rfl

/-! The flags the end of an operation writes. -/

@[simp] theorem Engine.flagsOnComplete_mem (e : Engine) (x : Option ErrKind) : (e.flagsOnComplete x).mem = e.mem := rfl
@[simp] theorem Engine.flagsOnComplete_keycnt (e : Engine) (x : Option ErrKind) : (e.flagsOnComplete x).keycnt = e.keycnt := rfl
@[simp] theorem Engine.flagsOnComplete_iovf (e : Engine) (x : Option ErrKind) : (e.flagsOnComplete x).iovf = e.iovf := rfl
@[simp] theorem Engine.flagsOnComplete_rptr (e : Engine) (x : Option ErrKind) : (e.flagsOnComplete x).rptr = e.rptr := rfl
@[simp] theorem Engine.flagsOnComplete_busy (e : Engine) (x : Option ErrKind) : (e.flagsOnComplete x).busy = false := rfl
@[simp] theorem Engine.flagsOnComplete_done (e : Engine) (x : Option ErrKind) : (e.flagsOnComplete x).done = true := rfl
@[simp] theorem Engine.flagsOnComplete_err (e : Engine) (x : Option ErrKind) : (e.flagsOnComplete x).err = x := rfl
@[simp] theorem Engine.flagsOnComplete_op (e : Engine) (x : Option ErrKind) : (e.flagsOnComplete x).op = e.op := rfl
@[simp] theorem Engine.flagsOnComplete_w (e : Engine) (x : Option ErrKind) : (e.flagsOnComplete x).w = e.w := rfl
@[simp] theorem Engine.flagsOnComplete_fb (e : Engine) (x : Option ErrKind) : (e.flagsOnComplete x).fb = e.fb := rfl
@[simp] theorem Engine.flagsOnComplete_st (e : Engine) (x : Option ErrKind) : (e.flagsOnComplete x).st = e.st := rfl

/-! The flags CLR writes. -/

@[simp] theorem Engine.flagsCleared_mem (e : Engine) : (e.flagsCleared).mem = e.mem := rfl
@[simp] theorem Engine.flagsCleared_keycnt (e : Engine) : (e.flagsCleared).keycnt = e.keycnt := rfl
@[simp] theorem Engine.flagsCleared_iovf (e : Engine) : (e.flagsCleared).iovf = false := rfl
@[simp] theorem Engine.flagsCleared_rptr (e : Engine) : (e.flagsCleared).rptr = e.rptr := rfl
@[simp] theorem Engine.flagsCleared_busy (e : Engine) : (e.flagsCleared).busy = false := rfl
@[simp] theorem Engine.flagsCleared_done (e : Engine) : (e.flagsCleared).done = false := rfl
@[simp] theorem Engine.flagsCleared_err (e : Engine) : (e.flagsCleared).err = none := rfl
@[simp] theorem Engine.flagsCleared_op (e : Engine) : (e.flagsCleared).op = none := rfl
@[simp] theorem Engine.flagsCleared_w (e : Engine) : (e.flagsCleared).w = e.w := rfl
@[simp] theorem Engine.flagsCleared_fb (e : Engine) : (e.flagsCleared).fb = e.fb := rfl
@[simp] theorem Engine.flagsCleared_st (e : Engine) : (e.flagsCleared).st = e.st := rfl

/-! Starting an operation. -/

@[simp] theorem Engine.startOp_mem (e : Engine) (k : OpKind) : (e.startOp k).mem = e.mem.clearOutput := rfl
@[simp] theorem Engine.startOp_keycnt (e : Engine) (k : OpKind) : (e.startOp k).keycnt = e.keycnt := rfl
@[simp] theorem Engine.startOp_iovf (e : Engine) (k : OpKind) : (e.startOp k).iovf = e.iovf := rfl
@[simp] theorem Engine.startOp_rptr (e : Engine) (k : OpKind) : (e.startOp k).rptr = 0 := rfl
@[simp] theorem Engine.startOp_busy (e : Engine) (k : OpKind) : (e.startOp k).busy = true := rfl
@[simp] theorem Engine.startOp_done (e : Engine) (k : OpKind) : (e.startOp k).done = false := rfl
@[simp] theorem Engine.startOp_err (e : Engine) (k : OpKind) : (e.startOp k).err = none := rfl
@[simp] theorem Engine.startOp_op (e : Engine) (k : OpKind) : (e.startOp k).op = some k := rfl
@[simp] theorem Engine.startOp_w (e : Engine) (k : OpKind) : (e.startOp k).w = e.w := rfl
@[simp] theorem Engine.startOp_fb (e : Engine) (k : OpKind) : (e.startOp k).fb = e.fb := rfl
@[simp] theorem Engine.startOp_st (e : Engine) (k : OpKind) : (e.startOp k).st = e.st := rfl

/-! The clearing at the end of an operation. -/

@[simp] theorem Engine.clearSecrets_mem (e : Engine) : (e.clearSecrets).mem = e.mem.clearKey.clearInput := rfl
@[simp] theorem Engine.clearSecrets_keycnt (e : Engine) : (e.clearSecrets).keycnt = 0 := rfl
@[simp] theorem Engine.clearSecrets_iovf (e : Engine) : (e.clearSecrets).iovf = false := rfl
@[simp] theorem Engine.clearSecrets_rptr (e : Engine) : (e.clearSecrets).rptr = e.rptr := rfl
@[simp] theorem Engine.clearSecrets_busy (e : Engine) : (e.clearSecrets).busy = e.busy := rfl
@[simp] theorem Engine.clearSecrets_done (e : Engine) : (e.clearSecrets).done = e.done := rfl
@[simp] theorem Engine.clearSecrets_err (e : Engine) : (e.clearSecrets).err = e.err := rfl
@[simp] theorem Engine.clearSecrets_op (e : Engine) : (e.clearSecrets).op = e.op := rfl
@[simp] theorem Engine.clearSecrets_w (e : Engine) : (e.clearSecrets).w = Vector.replicate 60 .zero := rfl
@[simp] theorem Engine.clearSecrets_fb (e : Engine) : (e.clearSecrets).fb = .zero := rfl
@[simp] theorem Engine.clearSecrets_st (e : Engine) : (e.clearSecrets).st = .zero := rfl

/-! The registers of the block core. -/

@[simp] theorem Engine.expandKey_mem (e : Engine) : (e.expandKey).mem = e.mem := rfl
@[simp] theorem Engine.expandKey_keycnt (e : Engine) : (e.expandKey).keycnt = e.keycnt := rfl
@[simp] theorem Engine.expandKey_iovf (e : Engine) : (e.expandKey).iovf = e.iovf := rfl
@[simp] theorem Engine.expandKey_rptr (e : Engine) : (e.expandKey).rptr = e.rptr := rfl
@[simp] theorem Engine.expandKey_busy (e : Engine) : (e.expandKey).busy = e.busy := rfl
@[simp] theorem Engine.expandKey_done (e : Engine) : (e.expandKey).done = e.done := rfl
@[simp] theorem Engine.expandKey_err (e : Engine) : (e.expandKey).err = e.err := rfl
@[simp] theorem Engine.expandKey_op (e : Engine) : (e.expandKey).op = e.op := rfl
@[simp] theorem Engine.expandKey_w (e : Engine) : (e.expandKey).w = keyExpansion e.key := rfl
@[simp] theorem Engine.expandKey_fb (e : Engine) : (e.expandKey).fb = e.fb := rfl
@[simp] theorem Engine.expandKey_st (e : Engine) : (e.expandKey).st = e.st := rfl

@[simp] theorem Engine.runCipher_mem (e : Engine) : (e.runCipher).mem = e.mem := rfl
@[simp] theorem Engine.runCipher_keycnt (e : Engine) : (e.runCipher).keycnt = e.keycnt := rfl
@[simp] theorem Engine.runCipher_iovf (e : Engine) : (e.runCipher).iovf = e.iovf := rfl
@[simp] theorem Engine.runCipher_rptr (e : Engine) : (e.runCipher).rptr = e.rptr := rfl
@[simp] theorem Engine.runCipher_busy (e : Engine) : (e.runCipher).busy = e.busy := rfl
@[simp] theorem Engine.runCipher_done (e : Engine) : (e.runCipher).done = e.done := rfl
@[simp] theorem Engine.runCipher_err (e : Engine) : (e.runCipher).err = e.err := rfl
@[simp] theorem Engine.runCipher_op (e : Engine) : (e.runCipher).op = e.op := rfl
@[simp] theorem Engine.runCipher_w (e : Engine) : (e.runCipher).w = e.w := rfl
@[simp] theorem Engine.runCipher_fb (e : Engine) : (e.runCipher).fb = e.fb := rfl
@[simp] theorem Engine.runCipher_st (e : Engine) : (e.runCipher).st = cipher e.w e.fb := rfl

end Sys2Proof.Machine
end

