-- ==== Sys2Proof/Laws/Memory.lean ====
section
/-! SUPPORT. The laws of the buffer spaces: a byte written is read back, no other byte changes, every operation keeps the
buffers within their capacities. -/

namespace Sys2Proof.Machine

/-- The key buffer has a byte at exactly the indices below 32. -/
theorem memRead_keybuf (m : Memory) (a : Nat) : memRead m .keybuf a = m.keybuf.toList[a]? := rfl

theorem memRead_ibuf (m : Memory) (a : Nat) : memRead m .ibuf a = m.ibuf[a]? := rfl

theorem memRead_obuf (m : Memory) (a : Nat) : memRead m .obuf a = m.obuf[a]? := rfl

@[simp] theorem Memory.bytes_keybuf_length (m : Memory) : (m.bytes .keybuf).length = 32 := by
  simp [Memory.bytes]

/-- A write at the end of a sequence appends. -/
@[simp] theorem writeSeq_length_self (bs : List Byte) (v : Byte) : writeSeq bs bs.length v = bs ++ [v] := by
  simp [writeSeq]

theorem writeSeq_length_le (bs : List Byte) (a : Nat) (v : Byte) :
    (writeSeq bs a v).length ≤ max bs.length (a + 1) := by
  unfold writeSeq
  split
  · simp
  · split <;> simp_all

theorem writeSeq_getElem? (bs : List Byte) (a : Nat) (v : Byte) (ha : a ≤ bs.length) (i : Nat) :
    (writeSeq bs a v)[i]? = if i = a then some v else bs[i]? := by
  unfold writeSeq
  rcases Nat.lt_or_ge a bs.length with h | h
  · simp only [h, if_true, List.getElem?_set]
    rcases eq_or_ne i a with rfl | hi
    · simp
    · simp [hi, hi.symm]
  · obtain rfl : a = bs.length := by omega
    simp only [lt_irrefl, if_false, if_true, List.getElem?_append]
    by_cases hi : i = bs.length
    · simp [hi]
    · by_cases hl : i < bs.length
      · simp [hi, hl]
      · have h2 : ([v] : List Byte)[i - bs.length]? = none := List.getElem?_eq_none (by simp; omega)
        simp [hi, hl, h2]

/-- What one write does to every byte of every space, at an index the rules write at: inside the key buffer, or at most
one past the end of a sequence. -/
theorem memRead_memWrite (m : Memory) (sp sp' : Space) (a i : Nat) (v : Byte)
    (ha : match sp with
      | .keybuf => a < 32
      | .ibuf => a ≤ m.ibuf.length
      | .obuf => a ≤ m.obuf.length) :
    memRead (memWrite m sp a v) sp' i = if sp' = sp ∧ i = a then some v else memRead m sp' i := by
  cases sp <;> cases sp' <;> simp only [memRead, memWrite, Memory.bytes] at ha ⊢ <;>
    first
    | simp [writeSeq_getElem? _ _ _ ha]
    | (rcases eq_or_ne i a with rfl | hi
       · simp [Vector.toList_setIfInBounds, ha]
       · simp [Vector.toList_setIfInBounds, hi, hi.symm])

/-- The capacities hold of the buffers after reset. -/
theorem Memory.reset_wf (cap : Capacity) : Memory.reset.wf cap = true := by
  simp [Memory.wf, Memory.reset, Capacity.ocap]

theorem Memory.wf_iff (cap : Capacity) (m : Memory) :
    m.wf cap = true ↔ m.ibuf.length ≤ cap.val ∧ m.obuf.length ≤ cap.ocap := by
  simp [Memory.wf]

/-- A write below the capacity of its space keeps the capacities. -/
theorem memWrite_wf {cap : Capacity} {m : Memory} (h : m.wf cap = true) (sp : Space) (a : Nat) (v : Byte)
    (ha : match sp with
      | .keybuf => True
      | .ibuf => a < cap.val
      | .obuf => a < cap.ocap) :
    (memWrite m sp a v).wf cap = true := by
  rw [Memory.wf_iff] at h ⊢
  cases sp with
  | keybuf => simpa [memWrite] using h
  | ibuf =>
    have := writeSeq_length_le m.ibuf a v
    simp only [memWrite] at ha ⊢
    omega
  | obuf =>
    have := writeSeq_length_le m.obuf a v
    simp only [memWrite] at ha ⊢
    omega

theorem Memory.clearKey_wf {cap : Capacity} {m : Memory} (h : m.wf cap = true) : m.clearKey.wf cap = true := h

theorem Memory.clearInput_wf {cap : Capacity} {m : Memory} (h : m.wf cap = true) : m.clearInput.wf cap = true := by
  rw [Memory.wf_iff] at h ⊢; simp [h.2]

theorem Memory.clearOutput_wf {cap : Capacity} {m : Memory} (h : m.wf cap = true) : m.clearOutput.wf cap = true := by
  rw [Memory.wf_iff] at h ⊢; simp [h.1]

/-- Writing a sequence from the end of the result on appends it and touches no other space. -/
theorem memWriteAll_obuf (m : Memory) (out : List Byte) :
    memWriteAll m .obuf m.obuf.length out = { m with obuf := m.obuf ++ out } := by
  induction out generalizing m with
  | nil => simp [memWriteAll]
  | cons v vs ih =>
    have h := ih (memWrite m .obuf m.obuf.length v)
    simp only [memWrite, writeSeq_length_self, List.length_append, List.length_cons, List.length_nil,
      Nat.zero_add, List.append_assoc, List.cons_append, List.nil_append] at h
    simpa [memWriteAll, memWrite] using h

/-- The result after an operation is exactly its output (R120). -/
theorem Memory.putResult_eq (m : Memory) (out : List Byte) : m.putResult out = { m with obuf := out } := by
  simpa [Memory.putResult, Memory.clearOutput] using memWriteAll_obuf m.clearOutput out

theorem Memory.putResult_wf {cap : Capacity} {m : Memory} (h : m.wf cap = true) {out : List Byte}
    (ho : out.length ≤ cap.ocap) : (m.putResult out).wf cap = true := by
  rw [Memory.wf_iff] at h ⊢
  simp [Memory.putResult_eq, h.1, ho]

/-- The key buffer after reset holds 32 zero bytes (R31). -/
theorem memRead_reset_keybuf {a : Nat} (ha : a < 32) : memRead Memory.reset .keybuf a = some 0 := by
  change (Vector.replicate 32 (0 : Byte)).toList[a]? = some 0
  rw [Vector.toList_replicate, List.getElem?_replicate, if_pos ha]

end Sys2Proof.Machine
end

