-- ==== Sys2Proof/Laws/Ops.lean ====
section
/-! SUPPORT. One law for each shared operation: what it answers and what it leaves. -/

namespace Sys2Proof.Machine

/-- While busy a command that is not NOP or STAT is answered NAK_BUSY and leaves the engine as it is. -/
theorem unlessBusy_busy {s : State} (h : s.engine.busy = true) (act : Host.Outcome State Fault Refusal) :
    unlessBusy s act = answer s s.engine .nakBusy := by simp [unlessBusy, h]

/-- While idle the command's own rule applies. -/
theorem unlessBusy_idle {s : State} (h : s.engine.busy = false) (act : Host.Outcome State Fault Refusal) :
    unlessBusy s act = act := by simp [unlessBusy, h]

/-- The whole next state of an answered command. -/
theorem answer_eq (s : State) (e : Engine) (r : Response) :
    answer s e r = .next { s with engine := e, out := s.out ++ [r.word] } := rfl

/-- RDB reads the byte under the cursor when there is one. -/
theorem readNext_some {s : State} {v : Byte} (h : memRead s.engine.mem .obuf s.engine.rptr = some v) :
    readNext s = answer s { s.engine with rptr := s.engine.rptr + 1 } (.data v) := by
  simp [readNext, Engine.nextByte, h]

/-- RDB answers EMPTY when there is none. -/
theorem readNext_none {s : State} (h : memRead s.engine.mem .obuf s.engine.rptr = none) :
    readNext s = answer s s.engine .empty := by
  simp [readNext, Engine.nextByte, h]

/-- CLR leaves the reset engine (R138). -/
theorem Engine.clear_eq_reset (e : Engine) : e.clear = Engine.reset := rfl

/-- An epilogue leaves the engine described by `Engine.ended`, whatever the registers held (R120). -/
theorem Engine.epilogue_eq_ended {e : Engine} {k : OpKind} (h : e.op = some k) (r : Except ErrKind (List Byte)) :
    e.epilogue (outcomeErr r) (outcomeBytes r) = Engine.ended k r := by
  cases r with
  | ok out =>
    simp [Engine.epilogue, Engine.ended, outcomeErr, outcomeBytes, Engine.flagsOnComplete, Engine.clearSecrets,
      Memory.putResult_eq, Engine.reset, Memory.reset, Memory.clearKey, Memory.clearInput, h]
  | error x =>
    simp [Engine.epilogue, Engine.ended, outcomeErr, outcomeBytes, Engine.flagsOnComplete, Engine.clearSecrets,
      Engine.reset, Memory.reset, Memory.clearKey, Memory.clearInput, Memory.clearOutput, h]

/-- The end of an operation with a result. -/
theorem Engine.epilogue_ok {e : Engine} {k : OpKind} (h : e.op = some k) (out : List Byte) :
    e.epilogue none out = Engine.ended k (.ok out) := Engine.epilogue_eq_ended h (.ok out)

/-- The end of an operation with an error (R159). -/
theorem Engine.raise_eq_ended {e : Engine} {k : OpKind} (h : e.op = some k) (x : ErrKind) :
    e.raise x = Engine.ended k (.error x) := Engine.epilogue_eq_ended h (.error x)

/-- The end of an operation, either way. -/
theorem Engine.finish_eq_ended {e : Engine} {k : OpKind} (h : e.op = some k) (r : Except ErrKind (List Byte)) :
    e.finish r = Engine.ended k r := by
  cases r with
  | ok out => exact Engine.epilogue_ok h out
  | error x => exact Engine.raise_eq_ended h x

/-! What KEYB and DATB do to each part of the engine. -/

/-- KEYB below 32 counts and stores the byte, at 32 it counts only, and above it does nothing (R132). -/
theorem Engine.pushKey_eq (e : Engine) (b : Byte) :
    e.pushKey b = { e with
      mem := if e.keycnt < 32 then memWrite e.mem .keybuf e.keycnt b else e.mem
      keycnt := if e.keycnt ≤ 32 then e.keycnt + 1 else e.keycnt } := by
  unfold Engine.pushKey
  split
  · simp [show e.keycnt ≤ 32 by omega]
  · split
    · simp [*]
    · simp [show ¬e.keycnt ≤ 32 by omega]

/-- DATB appends while there is room and otherwise sets the overflow flag (R133). -/
theorem Engine.pushInput_eq (icap : Capacity) (e : Engine) (b : Byte) :
    e.pushInput icap b = { e with
      mem := if e.ilen < icap.val then { e.mem with ibuf := e.mem.ibuf ++ [b] } else e.mem
      iovf := e.iovf || decide (icap.val ≤ e.ilen) } := by
  unfold Engine.pushInput
  split
  · simp [memWrite, Engine.ilen, show ¬icap.val ≤ e.mem.ibuf.length by simpa [Engine.ilen] using ‹_›]
  · simp [show icap.val ≤ e.ilen by omega]

/-- The input length after DATB (R133). -/
theorem Engine.pushInput_ilen (icap : Capacity) (e : Engine) (b : Byte) :
    (e.pushInput icap b).ilen = if e.ilen < icap.val then e.ilen + 1 else e.ilen := by
  unfold Engine.pushInput
  split
  · simp [memWrite, Engine.ilen]
  · rfl

/-- The key bytes counted so far, the first 32 of them (R13, R14). -/
theorem Engine.pushKey_bytes (e : Engine) (b : Byte) :
    (e.pushKey b).key.take (e.pushKey b).keycnt = (e.key.take e.keycnt ++ [b]).take 32 := by
  have hl : e.key.length = 32 := Memory.bytes_keybuf_length _
  rw [Engine.pushKey_eq]
  rcases Nat.lt_or_ge e.keycnt 32 with h | h
  · have hk : (memWrite e.mem .keybuf e.keycnt b).bytes .keybuf = e.key.set e.keycnt b := by
      simp [Engine.key, Memory.bytes, memWrite, Vector.toList_setIfInBounds]
    have hr : (e.key.take e.keycnt ++ [b]).length ≤ 32 := by simp; omega
    rw [List.take_of_length_le hr]
    have ht : (e.key.set e.keycnt b).take (e.keycnt + 1) = e.key.take e.keycnt ++ [b] := by
      rw [List.set_eq_take_append_cons_drop, if_pos (by omega)]
      simp [List.take_append, show min e.keycnt e.key.length = e.keycnt by omega]
    simp only [h, h.le, if_true]
    rw [← ht, ← hk]
    rfl
  · have hk : e.key.take e.keycnt = e.key := List.take_of_length_le (by omega)
    have hg : 32 ≤ if e.keycnt ≤ 32 then e.keycnt + 1 else e.keycnt := by split <;> omega
    rw [hk, List.take_append_of_le_length (by omega), List.take_of_length_le (l := e.key) (by omega)]
    simp only [show ¬e.keycnt < 32 by omega, if_false]
    exact List.take_of_length_le (by simpa [Engine.key] using hg)
end Sys2Proof.Machine
end

