-- ==== Sys2Proof/Laws/Chaining.lean ====
section
/-! SUPPORT. The laws of blocks and byte sequences, of padding, and of the feedback loop on the registers. -/

namespace Sys2Proof

open Machine (ErrKind)

@[simp] theorem AesWord.toBytes_length (v : AesWord) : v.toBytes.length = 4 := rfl

@[simp] theorem Block.toBytes_length (b : Block) : b.toBytes.length = 16 := rfl

/-- A block is the block loaded from its own bytes, whatever follows them. -/
@[simp] theorem Block.ofBytes_toBytes_append (b : Block) (rest : List Byte) :
    Block.ofBytes (b.toBytes ++ rest) = b := rfl

@[simp] theorem Block.ofBytes_toBytes (b : Block) : Block.ofBytes b.toBytes = b := rfl

/-- Sixteen bytes are the bytes of the block loaded from them. -/
theorem Block.toBytes_ofBytes {bs : List Byte} (h : bs.length = 16) : (Block.ofBytes bs).toBytes = bs := by
  match bs, h with
  | [_, _, _, _, _, _, _, _, _, _, _, _, _, _, _, _], _ => rfl

@[simp] theorem bytesOfBlocks_length (bs : List Block) : (bytesOfBlocks bs).length = 16 * bs.length := by
  induction bs with
  | nil => rfl
  | cons b bs ih => simp [bytesOfBlocks, ih]; omega

@[simp] theorem takeBlocks_length (m : Nat) (bs : List Byte) : (takeBlocks m bs).length = m := by
  induction m generalizing bs with
  | zero => rfl
  | succ m ih => simp [takeBlocks, ih]

/-- The blocks of the bytes of some blocks are those blocks. -/
@[simp] theorem blocksOf_bytesOfBlocks (bs : List Block) : blocksOf (bytesOfBlocks bs) = bs := by
  have take_all : ∀ bs : List Block, takeBlocks bs.length (bytesOfBlocks bs) = bs := by
    intro bs
    induction bs with
    | nil => rfl
    | cons b bs ih =>
      have h1 : (b.toBytes ++ bytesOfBlocks bs).take blk = b.toBytes := List.take_left' rfl
      have h2 : (b.toBytes ++ bytesOfBlocks bs).drop blk = bytesOfBlocks bs := List.drop_left' rfl
      simp only [bytesOfBlocks, List.length_cons, takeBlocks, h1, h2, ih, Block.ofBytes_toBytes]
  have hl : (bytesOfBlocks bs).length / blk = bs.length := by simp [blk]
  rw [blocksOf, hl, take_all]

/-- A sequence of whole blocks is the bytes of its blocks. -/
theorem bytesOfBlocks_blocksOf {x : List Byte} (h : 16 ∣ x.length) : bytesOfBlocks (blocksOf x) = x := by
  obtain ⟨m, hm⟩ := h
  have take_all : ∀ (m : Nat) (x : List Byte), x.length = 16 * m → bytesOfBlocks (takeBlocks m x) = x := by
    intro m
    induction m with
    | zero => intro x hx; simpa [takeBlocks, bytesOfBlocks] using (List.eq_nil_of_length_eq_zero hx).symm
    | succ m ih =>
      intro x hx
      have h1 : (x.take 16).length = 16 := by simp; omega
      have h2 : (x.drop 16).length = 16 * m := by simp; omega
      simp only [takeBlocks, bytesOfBlocks, blk, Block.toBytes_ofBytes h1, ih _ h2, List.take_append_drop]
  have hl : x.length / blk = m := by simp [blk, hm]
  rw [blocksOf, hl, take_all m x hm]

/-- `N` is between 1 and 16 (R101). -/
theorem padCount_bounds (n : Nat) : 1 ≤ padCount n ∧ padCount n ≤ 16 := by
  unfold padCount blk; omega

/-- A padded sequence is a whole number of blocks. -/
theorem pad_dvd (p : List Byte) : 16 ∣ (pad p).length := by
  have hb := padCount_bounds p.length
  simp only [pad, List.length_append, List.length_replicate]
  unfold padCount blk at *
  omega

@[simp] theorem cfbEncBlocks_length (f : Block → Block) (fb : Block) (xs : List Block) :
    (cfbEncBlocks f fb xs).length = xs.length := by
  induction xs generalizing fb with
  | nil => rfl
  | cons x xs ih => simp [cfbEncBlocks, ih]

@[simp] theorem cfbDecBlocks_length (f : Block → Block) (fb : Block) (cs : List Block) :
    (cfbDecBlocks f fb cs).length = cs.length := by
  induction cs generalizing fb with
  | nil => rfl
  | cons c cs ih => simp [cfbDecBlocks, ih]

/-- `Unpad` has one way to fail (R103). -/
theorem unpad_error {x : List Byte} {k : ErrKind} (h : unpad x = .error k) : k = .paddingError := by
  unfold unpad at h
  split at h
  · cases h; rfl
  · simp only at h
    split at h
    · cases h; rfl
    · split at h <;> cases h
      rfl

/-- `FramingOK` (R109). -/
theorem framingOk_iff (n : Nat) : framingOk n = true ↔ 16 ≤ n ∧ (n - 16) % 16 = 0 := by simp [framingOk]

namespace Machine

/-- The encryption loop on the registers appends what the loop on blocks computes from `W` and `FB`. -/
theorem Engine.cfbEncRun_bytes (e : Engine) (xs : List Block) :
    (e.cfbEncRun xs).2 = bytesOfBlocks (cfbEncBlocks (cipher e.w) e.fb xs) := by
  induction xs generalizing e with
  | nil => rfl
  | cons x xs ih => simp [Engine.cfbEncRun, cfbEncBlocks, bytesOfBlocks, ih, Engine.runCipher]

/-- The encryption loop leaves the latched operation as it is. -/
@[simp] theorem Engine.cfbEncRun_op (e : Engine) (xs : List Block) : (e.cfbEncRun xs).1.op = e.op := by
  induction xs generalizing e with
  | nil => rfl
  | cons x xs ih => simp [Engine.cfbEncRun, ih]

/-- The decryption loop on the registers appends what the loop on blocks computes from `W` and `FB`. -/
theorem Engine.cfbDecRun_bytes (e : Engine) (cs : List Block) :
    (e.cfbDecRun cs).2 = bytesOfBlocks (cfbDecBlocks (cipher e.w) e.fb cs) := by
  induction cs generalizing e with
  | nil => rfl
  | cons c cs ih => simp [Engine.cfbDecRun, cfbDecBlocks, bytesOfBlocks, ih, Engine.runCipher]

/-- The decryption loop leaves the latched operation as it is. -/
@[simp] theorem Engine.cfbDecRun_op (e : Engine) (cs : List Block) : (e.cfbDecRun cs).1.op = e.op := by
  induction cs generalizing e with
  | nil => rfl
  | cons c cs ih => simp [Engine.cfbDecRun, ih]

end Machine

end Sys2Proof
end

