-- ==== Sys2Proof/Laws/Encoding.lean ====
section
/-! SUPPORT. The bits of command words and response words, and that a command word is exactly its three fields. -/

namespace Sys2Proof

/-- Bit by bit, the word made of three fields. -/
theorem CommandFields.word_getLsbD (f : CommandFields) (j : Nat) :
    f.word.getLsbD j =
      if j < 8 then f.imm.getLsbD j else if j - 8 < 16 then f.rsv.getLsbD (j - 8) else f.opc.getLsbD (j - 8 - 16) := by
  change (f.opc ++ f.rsv ++ f.imm).getLsbD j = _
  simp only [BitVec.getLsbD_append]

/-- The fields of a word made of fields are those fields. -/
theorem fieldsOf_word (f : CommandFields) : fieldsOf f.word = f := by
  obtain ⟨o, r, m⟩ := f
  simp only [fieldsOf, CommandFields.mk.injEq]
  refine ⟨?_, ?_, ?_⟩ <;> apply BitVec.eq_of_getLsbD_eq <;> intro j hj <;>
    rw [BitVec.getLsbD_extractLsb', CommandFields.word_getLsbD]
  · simp [hj, show ¬ 24 + j < 8 by omega, show ¬ 24 + j - 8 < 16 by omega, show 24 + j - 8 - 16 = j by omega]
  · simp [hj, show ¬ 8 + j < 8 by omega]
  · simp [hj]

/-- A word is the word made of its fields. -/
theorem word_fieldsOf (c : Word) : (fieldsOf c).word = c := by
  apply BitVec.eq_of_getLsbD_eq
  intro j hj
  simp only [CommandFields.word_getLsbD, fieldsOf, BitVec.getLsbD_extractLsb']
  by_cases h : j < 8
  · simp [h]
  · by_cases h2 : j - 8 < 16
    · simp [h, h2, show 8 + (j - 8) = j by omega]
    · simp [h, h2, show j - 8 - 16 < 8 by omega, show 24 + (j - 8 - 16) = j by omega]

/-- The operation code of a mnemonic is read as that mnemonic, and no other code is. -/
theorem mnemonicOf_eq_some {o : BitVec 8} {m : Mnemonic} : mnemonicOf o = some m ↔ o = m.opc := by
  have all_codes : ∀ m : Mnemonic, ∀ o : BitVec 8, mnemonicOf o = some m ↔ o = m.opc := by
    intro m; cases m <;> decide +kernel
  exact all_codes m o

namespace Machine

/-- Bit by bit, a response word. -/
theorem Response.word_getLsbD (r : Response) (j : Nat) :
    r.word.getLsbD j =
      if j < 16 then r.val.getLsbD j else if j - 16 < 12 then false else r.kind.getLsbD (j - 16 - 12) := by
  change (r.kind ++ (0 : BitVec 12) ++ r.val).getLsbD j = _
  simp only [BitVec.getLsbD_append, BitVec.ofNat_eq_ofNat, BitVec.getLsbD_zero]

/-- The kind of a response word. -/
theorem Response.word_kind (r : Response) : r.word.extractLsb' 28 4 = r.kind := by
  apply BitVec.eq_of_getLsbD_eq
  intro j hj
  rw [BitVec.getLsbD_extractLsb', Response.word_getLsbD]
  simp [hj, show ¬ 28 + j < 16 by omega, show ¬ 28 + j - 16 < 12 by omega, show 28 + j - 16 - 12 = j by omega]

/-- The twelve zero bits of a response word. -/
theorem Response.word_zero (r : Response) : r.word.extractLsb' 16 12 = 0 := by
  apply BitVec.eq_of_getLsbD_eq
  intro j hj
  rw [BitVec.getLsbD_extractLsb', Response.word_getLsbD]
  simp [hj, show ¬ 16 + j < 16 by omega]

/-- The value of a response word. -/
theorem Response.word_val (r : Response) : r.word.extractLsb' 0 16 = r.val := by
  apply BitVec.eq_of_getLsbD_eq
  intro j hj
  rw [BitVec.getLsbD_extractLsb', Response.word_getLsbD]
  simp [hj]

/-- The number of a response word. -/
theorem Response.word_toNat (r : Response) : r.word.toNat = r.kind.toNat * 2 ^ 28 + r.val.toNat := by
  change (r.kind ++ (0 : BitVec 12) ++ r.val).toNat = _
  have hv : r.val.toNat < 2 ^ 16 := r.val.isLt
  simp only [BitVec.toNat_append, BitVec.toNat_ofNat, Nat.zero_mod, Nat.or_zero, BitVec.ofNat_eq_ofNat]
  rw [← Nat.shiftLeft_add, ← Nat.shiftLeft_add_eq_or_of_lt (by omega), Nat.shiftLeft_eq]

/-- A response word is the number its kind and its value make. -/
theorem Response.word_eq_ofNat {r : Response} {n : Nat} (h : r.kind.toNat * 2 ^ 28 + r.val.toNat = n) :
    r.word = BitVec.ofNat 32 n := by
  apply BitVec.eq_of_toNat_eq
  have hl := r.word.isLt
  rw [r.word_toNat, h] at hl ⊢
  simp [Nat.mod_eq_of_lt hl]

/-- The response word that carries a byte of the result. -/
theorem Response.data_word (v : Byte) : (Response.data v).word = BitVec.ofNat 32 (0x10000000 + v.toNat) := by
  apply Response.word_eq_ofNat
  change 1 * 2 ^ 28 + (zext16 v).toNat = 0x10000000 + v.toNat
  have hv := v.isLt
  simp only [zext16, BitVec.toNat_setWidth]
  omega

end Machine

end Sys2Proof
end

