-- ==== Sys2Proof/Laws/PerInstr.lean ====
section
/-! SUPPORT. Two facts about every command as syntax, one lemma a constructor: its line is well-formed, and the word it
encodes to has the fields the format asks for. -/

namespace Sys2Proof.Laws

namespace LineWellFormed

/-- The line that stands for a command passes every check of R66. -/
def Statement (i : Instr) : Prop := i.wellFormed = true

theorem nop : Statement .nop := rfl
theorem keyb (imm : Byte) : Statement (.keyb imm) := by
  simp [Statement, Instr.wellFormed, Line.wellFormed, Line.problem, Instr.line, Instr.mnemonic, Instr.operand,
    Mnemonic.takesByte, imm.isLt]
theorem datb (imm : Byte) : Statement (.datb imm) := by
  simp [Statement, Instr.wellFormed, Line.wellFormed, Line.problem, Instr.line, Instr.mnemonic, Instr.operand,
    Mnemonic.takesByte, imm.isLt]
theorem enc : Statement .enc := rfl
theorem dec : Statement .dec := rfl
theorem ecb : Statement .ecb := rfl
theorem stat : Statement .stat := rfl
theorem rdl : Statement .rdl := rfl
theorem rdb : Statement .rdb := rfl
theorem rwd : Statement .rwd := rfl
theorem clr : Statement .clr := rfl

end LineWellFormed

namespace OpcodeAssigned

/-- The operation code of a command is that of its mnemonic and of no other. -/
def Statement (i : Instr) : Prop := mnemonicOf i.mnemonic.opc = some i.mnemonic

theorem nop : Statement .nop := rfl
theorem keyb (imm : Byte) : Statement (.keyb imm) := rfl
theorem datb (imm : Byte) : Statement (.datb imm) := rfl
theorem enc : Statement .enc := rfl
theorem dec : Statement .dec := rfl
theorem ecb : Statement .ecb := rfl
theorem stat : Statement .stat := rfl
theorem rdl : Statement .rdl := rfl
theorem rdb : Statement .rdb := rfl
theorem rwd : Statement .rwd := rfl
theorem clr : Statement .clr := rfl

end OpcodeAssigned

end Sys2Proof.Laws
end

