-- ==== Sys2Proof/Laws/Step.lean ====
section
/-! SUPPORT. What a step is, by the event at the head of the input list, and the one thing every HOST step is: an answer. -/

namespace Sys2Proof.Machine

theorem step_cons {s : State} {ev : Event} {rest : List Event} (h : s.inputs = ev :: rest) :
    step s = eventStep ev { s with inputs := rest } := by simp [step, h]

theorem step_nil {s : State} (h : s.inputs = []) : step s = quietStep s := by simp [step, h]

theorem hostStep_legal {c : Word} {i : Instr} (h : decode c = .ok i) (s : State) : hostStep c s = exec i s := by
  simp [hostStep, h]

theorem hostStep_illegal {c : Word} {x : Illegal} (h : decode c = .error x) (s : State) :
    hostStep c s = answer s s.engine .nakIllegal := by simp [hostStep, h]

theorem engineStep_busy {s : State} (h : s.engine.busy = true) (a : RngAnswer) :
    engineStep a s = completeStep a s := by simp [engineStep, h]

theorem engineStep_idle {s : State} (h : s.engine.busy = false) (a : RngAnswer) :
    engineStep a s = .next s := by simp [engineStep, h]

theorem completeStep_latched {s : State} {k : OpKind} (h : s.engine.op = some k) (a : RngAnswer) :
    completeStep a s = .next { s with
      engine := s.engine.complete k a
      rngReq := s.rngReq + (s.engine.asksRng k).toNat } := by simp [completeStep, h]

/-- Every legal command is answered: it leaves some engine and gives some response, and touches nothing else. -/
theorem exec_is_answer (i : Instr) (s : State) : ∃ e r, exec i s = answer s e r := by
  have gated : ∀ (e : Engine) (r : Response), ∃ e' r', unlessBusy s (answer s e r) = answer s e' r' := by
    intro e r
    cases hb : s.engine.busy
    · exact ⟨e, r, unlessBusy_idle hb _⟩
    · exact ⟨_, _, unlessBusy_busy hb _⟩
  cases i with
  | nop => exact ⟨_, _, rfl⟩
  | stat => exact ⟨_, _, rfl⟩
  | rdb =>
    cases h : memRead s.engine.mem .obuf s.engine.rptr with
    | none => simp only [exec, execRdb, readNext_none h]; exact gated _ _
    | some v => simp only [exec, execRdb, readNext_some h]; exact gated _ _
  | _ => exact gated _ _

/-- Every command word is answered, legal or not. -/
theorem hostStep_is_answer (c : Word) (s : State) : ∃ e r, hostStep c s = answer s e r := by
  cases h : decode c with
  | error x => exact ⟨_, _, hostStep_illegal h s⟩
  | ok i => rw [hostStep_legal h]; exact exec_is_answer i s

/-- Every operation ends through its epilogue, with a result or with an error (R120). -/
theorem Engine.complete_is_ended {e : Engine} {k : OpKind} (h : e.op = some k) (a : RngAnswer) :
    ∃ r, e.complete k a = Engine.ended k r := by
  cases k with
  | enc =>
    simp only [Engine.complete, Engine.completeEnc]
    split; exact ⟨_, Engine.raise_eq_ended h _⟩
    split; exact ⟨_, Engine.raise_eq_ended h _⟩
    cases a with
    | unavailable => exact ⟨_, Engine.raise_eq_ended h _⟩
    | bytes iv => exact ⟨_, Engine.epilogue_ok (by simpa using h) _⟩
  | dec =>
    simp only [Engine.complete, Engine.completeDec]
    split; exact ⟨_, Engine.raise_eq_ended h _⟩
    split; exact ⟨_, Engine.raise_eq_ended h _⟩
    split; exact ⟨_, Engine.raise_eq_ended h _⟩
    exact ⟨_, Engine.finish_eq_ended (by simpa using h) _⟩
  | ecb =>
    simp only [Engine.complete, Engine.completeEcb]
    split; exact ⟨_, Engine.raise_eq_ended h _⟩
    split; exact ⟨_, Engine.raise_eq_ended h _⟩
    split; exact ⟨_, Engine.raise_eq_ended h _⟩
    exact ⟨_, Engine.epilogue_ok (by simpa using h) _⟩

/-- The ENGINE step of an operation in progress, where the environment schedules it (R118). -/
theorem step_complete {s : State} {k : OpKind} {a : RngAnswer} {rest : List Event}
    (hi : s.inputs = .complete a :: rest) (hb : s.engine.busy = true) (ho : s.engine.op = some k) :
    step s = .next { s with
      inputs := rest
      engine := s.engine.complete k a
      rngReq := s.rngReq + (s.engine.asksRng k).toNat } := by
  rw [step_cons hi]
  simp only [eventStep]
  rw [engineStep_busy (by exact hb), completeStep_latched (by exact ho)]

end Sys2Proof.Machine
end

