-- ==== Sys2Proof/Laws/Run.lean ====
section
/-! SUPPORT. Runs of several steps, and what a run of commands is made of. -/

namespace Sys2Proof.Machine

theorem run_zero (s : State) : Sys2Proof.core.run 0 s = .next s := rfl

/-- A run whose first step is known is the run of the rest from the state after it. -/
theorem run_succ {s t : State} (h : step s = .next t) (n : Nat) :
    Sys2Proof.core.run (n + 1) s = Sys2Proof.core.run n t := by
  have hs : Sys2Proof.core.step s = .next t := h
  simp only [Host.Core.run, hs]

/-- A run that is known to get to `t` goes on from `t`. -/
theorem run_add {m : Nat} {s t : State} (h : Sys2Proof.core.run m s = .next t) (n : Nat) :
    Sys2Proof.core.run (m + n) s = Sys2Proof.core.run n t := by
  induction m generalizing s with
  | zero => cases h; simp
  | succ m ih =>
    rw [show m + 1 + n = (m + n) + 1 by omega]
    cases hs : step s with
    | next u => rw [run_succ hs] at h ⊢; exact ih h
    | fault r =>
      have hr : Sys2Proof.core.step s = .fault r := hs
      simp only [Host.Core.run, hr] at h; cases h
    | refused r =>
      have hr : Sys2Proof.core.step s = .refused r := hs
      simp only [Host.Core.run, hr] at h; cases h

/-- A run of one step that gets somewhere. -/
theorem run_one {s t : State} (h : step s = .next t) : Sys2Proof.core.run 1 s = .next t := run_succ h 0

@[simp] theorem presented_append (as bs : List Instr) : presented (as ++ bs) = presented as ++ presented bs := by
  simp [presented]

@[simp] theorem presented_cons (i : Instr) (is : List Instr) :
    presented (i :: is) = .command (encode i) :: presented is := rfl

@[simp] theorem presented_nil : presented [] = [] := rfl

end Sys2Proof.Machine
end

