-- ==== Sys2Proof/Tests/Slice0.lean ====
section
/-! SUPPORT. Tests: each expected value is written out in the spec (the rule, worked example or vector is named beside it).
Then, for each obligation with hypotheses, a named state or operand that meets them, clause by clause. -/

namespace Sys2Proof.Tests

open Sys2Proof.Machine

/-! ## Small states -/

/-- The reset machine holding another engine. -/
def holding (e : Engine) : State := { State.reset with engine := e }

/-- The smallest capacity R6 allows. -/
def cap32 : Capacity := ⟨32, by decide⟩

/-- The engine in the busy window of an operation started with nothing loaded. -/
def started (k : OpKind) : Engine := { Engine.reset with busy := true, op := some k }

/-- The key `00 01 .. 1f`. -/
def countingKey : Vector Byte 32 := Vector.ofFn fun i => BitVec.ofNat 8 i.val

/-- The engine in the busy window of an operation on a key of 32 bytes and an input. -/
def loaded (k : OpKind) (key : Vector Byte 32) (input : List Byte) : Engine :=
  { started k with mem := ⟨key, input, []⟩, keycnt := 32 }

/-- The engine holding a result after an operation. -/
def holdsResult (k : OpKind) (out : List Byte) : Engine := Engine.ended k (.ok out)

/-- The sixteen bytes `00 01 .. 0f`. -/
def countingIv : Block := ⟨⟨0x00, 0x01, 0x02, 0x03⟩, ⟨0x04, 0x05, 0x06, 0x07⟩, ⟨0x08, 0x09, 0x0A, 0x0B⟩, ⟨0x0C, 0x0D, 0x0E, 0x0F⟩⟩

/-- The ciphertext block of V76. -/
def cipherV76 : List Byte :=
  [0xC2, 0x38, 0x43, 0x77, 0x00, 0x84, 0xB8, 0x40, 0x9B, 0x56, 0x38, 0x33, 0x9F, 0xF7, 0x30, 0x05]

/-- The plaintext `74 65 73 74` of V76. -/
def plainV76 : List Byte := [0x74, 0x65, 0x73, 0x74]

/-- The engine a step leaves, if it leaves one. -/
def engineOf : Host.Outcome State Fault Refusal → Option Engine
  | .next s => some s.engine
  | .fault _ => none
  | .refused _ => none

/-- The response words a step leaves. -/
def outOf : Host.Outcome State Fault Refusal → List Word
  | .next s => s.out
  | .fault _ => []
  | .refused _ => []

/-- The response to one word in the state after reset holding an engine. -/
def answerTo (e : Engine) (c : Word) : List Word := outOf (step { holding e with inputs := [.command c] })

/-- What one ENGINE step makes of an engine. -/
def completed (e : Engine) (a : RngAnswer) : Option Engine := engineOf (step { holding e with inputs := [.complete a] })

/-! ## Well-formed lines: one ill-formed line for each check (R66) -/

theorem test_line_operand_missing : (Line.mk .keyb none).problem = some .operandMissing := by decide
theorem test_line_operand_unexpected : (Line.mk .enc (some 0)).problem = some .operandUnexpected := by decide
theorem test_line_operand_too_wide : (Line.mk .datb (some 256)).problem = some .operandTooWide := by decide
theorem test_line_refused : (Line.mk .keyb none).wellFormed = false ∧ (Line.mk .datb (some 256)).assemble = none := by decide
theorem test_line_accepted : (Line.mk .keyb (some 0xA5)).assemble = some 0x010000A5 ∧
    (Line.mk .clr none).assemble = some 0x30000000 := by decide

/-! ## Words written out from the table of R58 and the vectors V102 to V127 -/

theorem test_decode_nop : decode (0b00000000_0000000000000000_00000000#32) = .ok .nop := by decide
theorem test_decode_keyb : decode (0b00000001_0000000000000000_10100101#32) = .ok (.keyb 0xA5) := by decide
theorem test_decode_datb : decode (0b00000010_0000000000000000_01110100#32) = .ok (.datb 0x74) := by decide
theorem test_decode_enc : decode (0b00010000_0000000000000000_00000000#32) = .ok .enc := by decide
theorem test_decode_dec : decode (0b00010001_0000000000000000_00000000#32) = .ok .dec := by decide
theorem test_decode_ecb : decode (0b00010010_0000000000000000_00000000#32) = .ok .ecb := by decide
theorem test_decode_stat : decode (0b00100000_0000000000000000_00000000#32) = .ok .stat := by decide
theorem test_decode_rdl : decode (0b00100001_0000000000000000_00000000#32) = .ok .rdl := by decide
theorem test_decode_rdb : decode (0b00100010_0000000000000000_00000000#32) = .ok .rdb := by decide
theorem test_decode_rwd : decode (0b00100011_0000000000000000_00000000#32) = .ok .rwd := by decide
theorem test_decode_clr : decode (0b00110000_0000000000000000_00000000#32) = .ok .clr := by decide

/-- V103, V113, V118, V124: test 3 of R59. -/
theorem test_decode_stray_immediate :
    [0x00000001, 0x10000001, 0x20000001, 0x30000080].map decode = List.replicate 4 (.error .strayImmediate) := by decide

/-- V104, V107, V109, V127: test 1 of R59. -/
theorem test_decode_reserved_bits :
    [0x00000100, 0x01800055, 0x02000100, 0xFFFFFFFF].map decode = List.replicate 4 (.error .reservedBits) := by decide

/-- V110, V111, V116, V122, V125, V126: test 2 of R59. -/
theorem test_decode_reserved_opcode :
    [0x03000000, 0x0F000000, 0x13000000, 0x24000000, 0x31000000, 0xFF000000].map decode =
      List.replicate 6 (.error .reservedOpcode) := by decide

theorem test_encode : encode (.keyb 0xFF) = 0x010000FF ∧ encode .ecb = 0x12000000 := by decide
theorem test_decode_table_word : decodeTableWord 32 0x020000FF = some (.datb 0xFF) ∧ decodeTableWord 32 0x13000000 = none := by
  decide
theorem test_with_fetch_word : (State.reset.withFetchWord 32 0x01000042).inputs = [.command 0x01000042] := by decide

/-! ## One step for each command, idle and busy (V102 to V127, the worked examples of R131 to R138) -/

theorem test_nop : answerTo Engine.reset 0x00000000 = [0x00000000] ∧ answerTo (started .ecb) 0x00000000 = [0x00000000] := by
  decide +kernel

/-- R132: the second byte of a key. -/
theorem test_keyb : (engineOf (execKeyb 0xA5 (holding { Engine.reset with keycnt := 1 }))).map
    (fun e => (e.keycnt, memRead e.mem .keybuf 0, memRead e.mem .keybuf 1)) = some (2, some 0x00, some 0xA5) := by decide +kernel

/-- R132: the 33rd byte changes no byte of `KEYBUF` and leaves `KEYCNT = 33`. -/
theorem test_keyb_33rd : (engineOf (execKeyb 0xFF (holding { Engine.reset with keycnt := 32 }))).map
    (fun e => (e.keycnt, e.key)) = some (33, List.replicate 32 0x00) := by decide +kernel

theorem test_datb : (engineOf (execDatb 0x74 (holding Engine.reset))).map (fun e => (e.input, e.ilen, e.iovf)) =
    some ([0x74], 1, false) := by decide +kernel

/-- R133: with `ICAP = 32` the 33rd byte is dropped and `STATUS` becomes `0x0004`. -/
theorem test_datb_overflow :
    (engineOf (execDatb 0x00 { State.reset with
      icap := cap32
      engine := { Engine.reset with mem := { Memory.reset with ibuf := List.replicate 32 0x11 } } })).map
    (fun e => (e.ilen, e.status)) = some (32, 0x0004) := by decide +kernel

/-- V117: in the busy window of an ECB. -/
theorem test_stat_busy : answerTo (started .ecb) 0x20000000 = [0x20000301] := by decide +kernel

/-- R134: after a DEC that ended in `PaddingError`. -/
theorem test_stat_padding_error : answerTo (Engine.ended .dec (.error .paddingError)) 0x20000000 = [0x20000232] := by
  decide +kernel

/-- R135: after the encryption of a 4-byte plaintext. -/
theorem test_rdl : answerTo (holdsResult .enc (List.replicate 32 0x00)) 0x21000000 = [0x30000020] := by decide +kernel

/-- R136: the first byte of the block of FIPS-197 C.3, and EMPTY past the last one. -/
theorem test_rdb : answerTo (holdsResult .ecb [0x8E, 0xA2]) 0x22000000 = [0x1000008E] ∧
    answerTo { holdsResult .ecb [0x8E, 0xA2] with rptr := 2 } 0x22000000 = [0x40000000] := by decide +kernel
theorem test_rdb_advances : (engineOf (execRdb (holding (holdsResult .ecb [0x8E, 0xA2])))).map (·.rptr) = some 1 := by
  decide +kernel

theorem test_rwd : (engineOf (execRwd (holding { holdsResult .ecb [0x8E, 0xA2] with rptr := 2 }))).map
    (fun e => (e.rptr, e.result)) = some (0, [0x8E, 0xA2]) := by decide +kernel

theorem test_clr : engineOf (execClr (holding { holdsResult .dec [0x74] with keycnt := 33, iovf := true })) =
    some Engine.reset := by decide +kernel

/-- V123: there is no abort. -/
theorem test_clr_busy : answerTo (started .ecb) 0x30000000 = [0xE0000000] := by decide +kernel

theorem test_enc_start : (engineOf (execEnc (holding (holdsResult .dec [0x74])))).map (fun e => (e.status, e.olen)) =
    some (0x0101, 0) := by decide +kernel
theorem test_dec_start : (engineOf (execDec (holding Engine.reset))).map (·.status) = some 0x0201 := by decide +kernel
theorem test_ecb_start : (engineOf (execEcb (holding Engine.reset))).map (·.status) = some 0x0301 := by decide +kernel

/-- V113 and V118: an illegal word is refused as illegal, busy or idle. -/
theorem test_illegal : answerTo Engine.reset 0x10000001 = [0xF0000000] ∧ answerTo (started .ecb) 0x20000001 = [0xF0000000] := by
  decide +kernel

/-! ## The block core (R78 to R91) -/

theorem test_xtime : [0x57, 0xAE, 0x47, 0x8E, 0x80, 0xFF, 0x00].map xtime = [0xAE, 0x47, 0x8E, 0x07, 0x1B, 0xE5, 0x00] := by
  decide
theorem test_sbox : [0x00, 0x01, 0x53, 0xFF].map sbox = [0x63, 0x7C, 0xED, 0x16] := by decide +kernel

/-- R85: the indices of the old state in the order of the new one. -/
theorem test_shift_rows :
    (shiftRows countingIv).toBytes =
      [0x00, 0x05, 0x0A, 0x0F, 0x04, 0x09, 0x0E, 0x03, 0x08, 0x0D, 0x02, 0x07, 0x0C, 0x01, 0x06, 0x0B] := by decide

/-- R86: four of its example columns. -/
theorem test_mix_columns :
    mixColumns ⟨⟨0xDB, 0x13, 0x53, 0x45⟩, ⟨0xF2, 0x0A, 0x22, 0x5C⟩, ⟨0xD4, 0xD4, 0xD4, 0xD5⟩, ⟨0x2D, 0x26, 0x31, 0x4C⟩⟩ =
      ⟨⟨0x8E, 0x4D, 0xA1, 0xBC⟩, ⟨0x9F, 0xDC, 0x58, 0x9D⟩, ⟨0xD5, 0xD5, 0xD7, 0xD6⟩, ⟨0x4D, 0x7E, 0xBD, 0xF8⟩⟩ := by
  decide +kernel

/-- R90: three words of the schedule of the key `603deb10 .. 0914dff4`. -/
theorem test_key_expansion :
    let w := (keyExpansion
      [0x60, 0x3D, 0xEB, 0x10, 0x15, 0xCA, 0x71, 0xBE, 0x2B, 0x73, 0xAE, 0xF0, 0x85, 0x7D, 0x77, 0x81,
       0x1F, 0x35, 0x2C, 0x07, 0x3B, 0x61, 0x08, 0xD7, 0x2D, 0x98, 0x10, 0xA3, 0x09, 0x14, 0xDF, 0xF4]).word
    w 8 = ⟨0x9B, 0xA3, 0x54, 0x11⟩ ∧ w 12 = ⟨0xA8, 0xB0, 0x9C, 0x1A⟩ ∧ w 59 = ⟨0x70, 0x6C, 0x63, 0x1E⟩ := by decide +kernel

/-! ## Padding and framing (V54 to V74) -/

theorem test_pad : pad [] = List.replicate 16 0x10 ∧ pad plainV76 = plainV76 ++ List.replicate 12 0x0C := by decide
theorem test_unpad :
    unpad (plainV76 ++ List.replicate 12 0x0C) = .ok plainV76 ∧
    unpad (List.replicate 14 0x00 ++ [0x02, 0x02]) = .ok (List.replicate 14 0x00) := by decide
theorem test_unpad_error :
    [[], List.replicate 16 0x00, List.replicate 15 0x00 ++ [0x11], List.replicate 14 0x00 ++ [0x02, 0x03]].map unpad =
      List.replicate 4 (.error .paddingError) := by decide
theorem test_framing : [0, 15, 16, 17, 31, 32, 33].map framingOk = [false, false, true, false, false, true, false] := by decide

/-! ## The ENGINE step (R94, R118 to R122, the programs P1 and P2) -/

/-- V47 and R94: FIPS-197 C.3 through the ECB command. -/
theorem test_complete_ecb :
    (completed (loaded .ecb countingKey
      [0x00, 0x11, 0x22, 0x33, 0x44, 0x55, 0x66, 0x77, 0x88, 0x99, 0xAA, 0xBB, 0xCC, 0xDD, 0xEE, 0xFF]) .unavailable).map
    (fun e => (e.status, e.result)) =
      some (0x0302, [0x8E, 0xA2, 0xB7, 0xCA, 0x51, 0x67, 0x45, 0xBF, 0xEA, 0xFC, 0x49, 0x90, 0x4B, 0x49, 0x60, 0x89]) := by
  decide +kernel

/-- V76 through the ENC command. -/
theorem test_complete_enc :
    (completed (loaded .enc (Vector.replicate 32 0x00) plainV76) (.bytes countingIv)).map (fun e => (e.status, e.result)) =
      some (0x0102, countingIv.toBytes ++ cipherV76) := by decide +kernel

/-- The blob of V76 decrypts to its plaintext. -/
theorem test_decrypt : decrypt (List.replicate 32 0x00) (countingIv.toBytes ++ cipherV76) = .ok plainV76 := by decide +kernel

/-- V94: the blob of V76 under a key whose first byte is `01`, through the DEC command. -/
theorem test_complete_dec_wrong_key :
    (completed (loaded .dec ((Vector.replicate 32 0x00).set 0 0x01) (countingIv.toBytes ++ cipherV76)) .unavailable).map
      (fun e => (e.status, e.olen)) = some (0x0232, 0) := by decide +kernel

/-- V86: an initialization vector and nothing else. -/
theorem test_complete_dec_iv_only :
    (completed (loaded .dec (Vector.replicate 32 0x00) (List.replicate 16 0x00)) .unavailable).map (·.status) =
      some 0x0232 := by decide +kernel

/-- V83, and the key gone after it (R120). -/
theorem test_complete_enc_unavailable :
    (completed (loaded .enc countingKey plainV76) .unavailable).map (fun e => (e.status, e.keycnt, e.input)) =
      some (0x0142, 0, []) := by decide +kernel

/-- R158: the key test before the overflow test, and the overflow test before the others. -/
theorem test_priority :
    (completed { started .ecb with iovf := true } .unavailable).map (·.err) = some (some .invalidKeyLength) ∧
    (completed { loaded .enc countingKey [] with iovf := true } .unavailable).map (·.err) = some (some .inputOverflow) := by
  decide +kernel

/-- R182: reset in the busy window. -/
theorem test_reset : engineOf (step { holding (loaded .enc countingKey plainV76) with inputs := [.reset] }) =
    some Engine.reset := by decide +kernel

/-! ## Witnesses: for each obligation with hypotheses, something that meets them -/

/-- A state in the busy window, with a full and overflowed input. -/
def busyOverflowed : State :=
  { State.reset with
    icap := cap32
    engine := { started .enc with mem := ⟨Vector.replicate 32 0, List.replicate 32 0x11, []⟩, iovf := true } }

/-- The reset machine with one event to come. -/
def next1 (e : Engine) (ev : Event) : State := { holding e with inputs := [ev] }

theorem witness_EncodeOfDecodeIsTheWord : decode 0x010000A5 = .ok (.keyb 0xA5) := by decide

/-- A row, a word that matches it and a word that does not. -/
theorem witness_OpcodeMapIsTheLegalityTest : ∃ row ∈ opcodeRows,
    (0x020000FF : Word) &&& row.mask = row.pattern ∧ (0x03000000 : Word) &&& row.mask ≠ row.pattern :=
  ⟨⟨.datb, 0x02000000, 0xFFFFFF00⟩, by decide, by decide, by decide⟩

/-- A word for each of the three tests, and one that passes them all, each with the fields the statement speaks of. -/
theorem witness_DecodeTestsInOrder :
    (0x00000100 : Word).extractLsb' 8 16 ≠ 0 ∧ (0x03000000 : Word).extractLsb' 8 16 = 0 ∧
    decode 0x00000100 = .error .reservedBits ∧ decode 0x03000000 = .error .reservedOpcode ∧
    decode 0x30000080 = .error .strayImmediate ∧ decode 0x020000FF = .ok (.datb 0xFF) := by decide

/-- The lines at the boundary of a byte, and the two that have or lack an operand wrongly. -/
theorem witness_LinesAssembleToTheirWords :
    (Line.mk .keyb (some 255)).assemble = some 0x010000FF ∧ (Line.mk .keyb (some 256)).assemble = none ∧
    (Line.mk .datb none).assemble = none ∧ (Line.mk .stat (some 0)).assemble = none := by decide

theorem witness_ResponsesStayLegal : ∃ s t : State, (∀ r ∈ s.out, legalResponse r) ∧ step s = .next t ∧ t.out ≠ s.out :=
  ⟨next1 Engine.reset (.command 0x21000000), _, by simp [next1, holding, State.reset], rfl, by decide⟩

/-- A step on a command word, and steps on each of the other events and on none. -/
theorem witness_OneResponseForEachCommand :
    (∃ s t c rest, step s = .next t ∧ s.inputs = .command c :: rest) ∧
    (∃ s t, step s = .next t ∧ s.inputs = [.reset]) ∧ (∃ s t, step s = .next t ∧ s.inputs = [.complete .unavailable]) ∧
    (∃ s t, step s = .next t ∧ s.inputs = []) :=
  ⟨⟨next1 Engine.reset (.command 0xFFFFFFFF), _, _, _, rfl, rfl⟩, ⟨next1 Engine.reset .reset, _, rfl, rfl⟩,
   ⟨next1 Engine.reset (.complete .unavailable), _, rfl, rfl⟩, ⟨State.reset, _, rfl, rfl⟩⟩

theorem witness_StepRunsTheDecodedCommand : ∃ (s : State) (c : Word) (rest : List Event) (i : Instr),
    s.inputs = .command c :: rest ∧ decode c = .ok i :=
  ⟨next1 (started .dec) (.command 0x30000000), _, [], .clr, rfl, by decide⟩

theorem witness_RefusedCommandsChangeNothing :
    (∃ (s : State) (c : Word) (rest : List Event) (x : Illegal),
      s.inputs = .command c :: rest ∧ decode c = .error x ∧ s.engine.busy = true) ∧
    (∃ (s : State) (i : Instr), s.engine.busy = true ∧ i ≠ .nop ∧ i ≠ .stat) :=
  ⟨⟨next1 (started .dec) (.command 0x20000001), _, [], .strayImmediate, rfl, by decide, rfl⟩,
   ⟨holding (started .dec), .keyb 0, rfl, by decide, by decide⟩⟩

/-- Reset in the busy window, and an idle state that CLR clears. -/
theorem witness_ResetEventClearsEverything :
    (∃ (s t : State) (rest : List Event), s.inputs = .reset :: rest ∧ step s = .next t ∧ s.engine.busy = true) ∧
    (∃ u : State, u.engine.busy = false ∧ u.engine ≠ Engine.reset) :=
  ⟨⟨next1 (started .enc) .reset, _, [], rfl, rfl, rfl⟩, ⟨holding (holdsResult .dec [0x74]), rfl, by decide +kernel⟩⟩

theorem witness_StateAfterReset :
    (∃ (s : State) (rest : List Event), s.inputs = .reset :: rest ∧ s.engine.busy = true) ∧
    (∃ s : State, s.engine.busy = false ∧ s.engine ≠ State.reset.engine) :=
  ⟨⟨next1 (started .enc) .reset, [], rfl, rfl⟩, ⟨holding (holdsResult .dec [0x74]), rfl, by decide +kernel⟩⟩

theorem witness_QuietEnvironment :
    (∃ s : State, s.inputs = [] ∧ s.engine.busy = false) ∧
    (∃ (s : State) (k : OpKind), s.inputs = [] ∧ s.engine.busy = true ∧ s.engine.op = some k) :=
  ⟨⟨State.reset, rfl, rfl⟩, ⟨holding (started .enc), .enc, rfl, rfl, rfl⟩⟩

/-- A busy engine and a command it does not answer with NAK_BUSY. -/
theorem witness_NopDoesNothing : ∃ (s : State) (i : Instr), s.engine.busy = true ∧
    exec i s ≠ .next { s with out := s.out ++ [0xE0000000] } :=
  ⟨holding (started .ecb), .stat, rfl, fun h => absurd (congrArg outOf h) (by decide +kernel)⟩

/-- Idle states on both sides of every boundary of `KEYCNT`: 0 and 31, 32, 33. -/
theorem witness_KeybAppendsToTheKey : ∀ n ∈ [0, 31, 32, 33], ∃ s : State, s.engine.busy = false ∧ s.engine.keycnt = n :=
  fun n _ => ⟨holding { Engine.reset with keycnt := n }, rfl, rfl⟩

/-- Idle states with room for one byte and with none. -/
theorem witness_DatbAppendsToTheInput :
    (∃ s : State, s.engine.busy = false ∧ s.engine.ilen < s.icap.val ∧ s.engine.ilen + 1 = s.icap.val) ∧
    (∃ s : State, s.engine.busy = false ∧ s.icap.val ≤ s.engine.ilen) :=
  ⟨⟨{ State.reset with
      icap := cap32
      engine := { Engine.reset with mem := { Memory.reset with ibuf := List.replicate 31 0 } } }, rfl, by decide, by decide⟩,
   ⟨{ State.reset with
      icap := cap32
      engine := { Engine.reset with mem := { Memory.reset with ibuf := List.replicate 32 0 } } }, rfl, by decide⟩⟩

/-- The invariant holds in the busy window with an overflowed input, after a success, after an error, and in a state that
has done nothing yet. -/
theorem witness_ReachableStatusValues :
    (EngineInv busyOverflowed ∧ busyOverflowed.engine.busy = true) ∧
    (EngineInv (holding (holdsResult .dec [0x74])) ∧ (holding (holdsResult .dec [0x74])).engine.done = true) ∧
    (EngineInv (holding (Engine.ended .dec (.error .paddingError))) ∧
      (Engine.ended .dec (.error .paddingError)).err = some .paddingError) ∧
    (EngineInv (holding Engine.reset) ∧ Engine.reset.busy = false ∧ Engine.reset.done = false ∧ Engine.reset.op = none) := by
  refine ⟨⟨?_, rfl⟩, ⟨?_, rfl⟩, ⟨?_, rfl⟩, ⟨?_, rfl, rfl, rfl⟩⟩ <;> constructor <;>
    first
    | decide
    | exact ⟨rfl, rfl, rfl⟩

/-- An idle state whose result fills the output buffer of the smallest capacity. -/
theorem witness_RdlReadsTheLength : ∃ s : State, s.engine.busy = false ∧ s.engine.olen ≤ s.icap.ocap ∧
    s.engine.olen = s.icap.ocap :=
  ⟨{ State.reset with
      icap := cap32
      engine := holdsResult .enc (List.replicate 64 0) }, rfl, by decide, by decide⟩

/-- The cursor at the first and at the last byte, and past the last. -/
theorem witness_RdbReadsTheNextByte :
    (∃ s : State, s.engine.busy = false ∧ s.engine.rptr = 0 ∧ s.engine.rptr < s.engine.olen) ∧
    (∃ s : State, s.engine.busy = false ∧ s.engine.rptr + 1 = s.engine.olen ∧ s.engine.rptr < s.engine.olen) ∧
    (∃ s : State, s.engine.busy = false ∧ s.engine.olen ≤ s.engine.rptr) :=
  ⟨⟨holding (holdsResult .ecb [0x8E, 0xA2]), rfl, rfl, by decide⟩,
   ⟨holding { holdsResult .ecb [0x8E, 0xA2] with rptr := 1 }, rfl, rfl, by decide⟩,
   ⟨holding { holdsResult .ecb [0x8E, 0xA2] with rptr := 2 }, rfl, by decide⟩⟩

/-- A busy state, an idle state without a result and one with, and the states RWD leads to. -/
theorem witness_RwdRewinds :
    (∃ s : State, s.engine.busy = true) ∧
    (∃ s t : State, s.engine.busy = false ∧ exec .rwd s = .next t ∧ t.engine.olen = 0) ∧
    (∃ (s t : State) (v : Byte), s.engine.busy = false ∧ exec .rwd s = .next t ∧ memRead t.engine.mem .obuf 0 = some v) :=
  ⟨⟨holding (started .ecb), rfl⟩, ⟨holding Engine.reset, _, rfl, rfl, rfl⟩,
   ⟨holding { holdsResult .ecb [0x8E, 0xA2] with rptr := 2 }, _, 0x8E, rfl, rfl, rfl⟩⟩

theorem witness_ClrReturnsToReset : ∃ s : State, s.engine.busy = false ∧ s.engine ≠ State.reset.engine :=
  ⟨holding { Engine.reset with keycnt := 33, iovf := true }, rfl, by decide +kernel⟩

/-- A command outside each of the groups the clauses name, with a next state. -/
theorem witness_CommandsWriteOnlyTheirOwn : ∃ (s t : State), exec .stat s = .next t ∧
    (∀ b, Instr.stat ≠ .keyb b) ∧ (∀ b, Instr.stat ≠ .datb b) ∧ (∀ k : OpKind, Instr.stat ≠ k.start) ∧
    Instr.stat ≠ .rdb ∧ Instr.stat ≠ .rwd ∧ Instr.stat ≠ .clr :=
  ⟨holding (holdsResult .ecb [0x8E]), _, rfl, by simp, by simp, by intro k; cases k <;> simp [OpKind.start], by decide,
    by decide, by decide⟩

/-- A result of two bytes with the cursor after the first, and one with the cursor at its end. -/
theorem witness_ReadAllGivesTheResult : ∀ n ∈ [1, 2], ∃ s : State, s.engine.busy = false ∧ s.engine.rptr = n ∧
    s.engine.rptr ≤ s.engine.olen ∧ s.inputs = presented (pseudoReadAll s.engine) := by
  intro n hn
  refine ⟨{ holding { holdsResult .ecb [0x8E, 0xA2] with rptr := n } with
    inputs := presented (pseudoReadAll { holdsResult .ecb [0x8E, 0xA2] with rptr := n }) }, rfl, rfl, ?_, rfl⟩
  simp only [List.mem_cons, List.not_mem_nil, or_false] at hn
  rcases hn with rfl | rfl <;> decide

/-- An idle state with the outcome of an earlier operation and a key and an input for the next. -/
theorem witness_StartCommandsLatchTheOperation : ∃ s : State, s.engine.busy = false ∧ s.engine.keycnt = 32 ∧
    s.engine.olen = 1 ∧ s.engine.done = true :=
  ⟨holding { holdsResult .dec [0x74] with keycnt := 32 }, rfl, rfl, rfl, rfl⟩

theorem witness_BusyWindowChangesNothingAndCloses : ∃ (s : State) (k : OpKind) (words : List Word)
    (a : RngAnswer) (rest : List Event), s.engine.busy = true ∧ s.engine.op = some k ∧
    s.inputs = words.map Event.command ++ .complete a :: rest ∧ words ≠ [] :=
  ⟨{ holding (started .ecb) with inputs := [.command 0x01000000, .command 0xFFFFFFFF, .complete .unavailable] }, .ecb,
    [0x01000000, 0xFFFFFFFF], .unavailable, [], rfl, rfl, rfl, by decide⟩

/-- A step for each of the four changes. -/
theorem witness_OnlyTheirEventsChangeBusyAndDone :
    (∃ s t : State, step s = .next t ∧ s.engine.busy = false ∧ t.engine.busy = true) ∧
    (∃ s t : State, step s = .next t ∧ s.engine.busy = true ∧ t.engine.busy = false) ∧
    (∃ s t : State, step s = .next t ∧ s.engine.done = false ∧ t.engine.done = true) ∧
    (∃ s t : State, step s = .next t ∧ s.engine.done = true ∧ t.engine.done = false) :=
  ⟨⟨next1 Engine.reset (.command 0x12000000), _, rfl, rfl, rfl⟩, ⟨next1 (started .ecb) .reset, _, rfl, rfl, rfl⟩,
   ⟨next1 (started .ecb) (.complete .unavailable), _, rfl, rfl, rfl⟩,
   ⟨next1 (holdsResult .dec [0x74]) (.command 0x30000000), _, rfl, rfl, rfl⟩⟩

/-- An operation loaded with a key of 32 bytes, at the point where it completes. -/
theorem witness_EncCompletesAsEncrypt : ∃ s a rest, State.inputs s = .complete a :: rest ∧ s.engine.busy = true ∧
    s.engine.op = some .enc ∧ s.engine.keycnt = 32 ∧ s.engine.iovf = false :=
  ⟨next1 (loaded .enc countingKey plainV76) (.complete (.bytes countingIv)), _, _, rfl, rfl, rfl, rfl, rfl⟩

theorem witness_DecCompletesAsDecrypt : ∃ s a rest, State.inputs s = .complete a :: rest ∧ s.engine.busy = true ∧
    s.engine.op = some .dec ∧ s.engine.keycnt = 32 ∧ s.engine.iovf = false :=
  ⟨next1 (loaded .dec countingKey (countingIv.toBytes ++ cipherV76)) (.complete .unavailable), _, _, rfl, rfl, rfl, rfl, rfl⟩

theorem witness_EcbCompletesAsBlockEncrypt : ∃ s a rest, State.inputs s = .complete a :: rest ∧ s.engine.busy = true ∧
    s.engine.op = some .ecb ∧ s.engine.keycnt = 32 ∧ s.engine.iovf = false ∧ s.engine.ilen = 16 :=
  ⟨next1 (loaded .ecb countingKey cipherV76) (.complete .unavailable), _, _, rfl, rfl, rfl, rfl, rfl, rfl⟩

/-- For each clause an operation that meets it: the keys of 31 and of more than 32 bytes, the overflowed input, the blobs
of 15, 16, 17 and 32 bytes, the blocks of 15, 16 and 17 bytes, and both answers of the random source. -/
theorem witness_ErrorsInPriorityOrder :
    (∀ n ∈ [31, 33], ∃ s k a rest, State.inputs s = .complete a :: rest ∧ s.engine.busy = true ∧ s.engine.op = some k ∧
      s.engine.keycnt = n ∧ s.engine.keycnt ≠ 32) ∧
    (∃ s k a rest, State.inputs s = .complete a :: rest ∧ s.engine.busy = true ∧ s.engine.op = some k ∧
      s.engine.keycnt = 32 ∧ s.engine.iovf = true) ∧
    (∀ n ∈ [15, 17], ∃ s a rest, State.inputs s = .complete a :: rest ∧ s.engine.busy = true ∧ s.engine.op = some .dec ∧
      s.engine.keycnt = 32 ∧ s.engine.iovf = false ∧ ¬(16 ≤ s.engine.ilen ∧ (s.engine.ilen - 16) % 16 = 0) ∧
      s.engine.ilen = n) ∧
    (∀ n ∈ [16, 32], ∃ s a rest, State.inputs s = .complete a :: rest ∧ s.engine.busy = true ∧ s.engine.op = some .dec ∧
      s.engine.keycnt = 32 ∧ s.engine.iovf = false ∧ 16 ≤ s.engine.ilen ∧ (s.engine.ilen - 16) % 16 = 0 ∧
      s.engine.ilen = n) ∧
    (∀ n ∈ [15, 16, 17], ∃ s a rest, State.inputs s = .complete a :: rest ∧ s.engine.busy = true ∧
      s.engine.op = some .ecb ∧ s.engine.keycnt = 32 ∧ s.engine.iovf = false ∧ s.engine.ilen = n) ∧
    (∀ a ∈ [.unavailable, .bytes countingIv], ∃ s rest, State.inputs s = .complete a :: rest ∧ s.engine.busy = true ∧
      s.engine.op = some .enc ∧ s.engine.keycnt = 32 ∧ s.engine.iovf = false) := by
  refine ⟨?_, ?_, ?_, ?_, ?_, ?_⟩
  · intro n hn
    refine ⟨next1 { started .dec with keycnt := n } (.complete .unavailable), .dec, _, _, rfl, rfl, rfl, rfl, ?_⟩
    rintro rfl
    exact absurd hn (by decide)
  · exact ⟨next1 { started .dec with keycnt := 32, iovf := true } (.complete .unavailable), .dec, _, _, rfl, rfl, rfl, rfl, rfl⟩
  · intro n hn
    refine ⟨next1 (loaded .dec countingKey (List.replicate n 0)) (.complete .unavailable), _, _, rfl, rfl, rfl, rfl, rfl, ?_, ?_⟩ <;>
      simp only [List.mem_cons, List.not_mem_nil, or_false] at hn <;> rcases hn with rfl | rfl <;> decide
  · intro n hn
    refine ⟨next1 (loaded .dec countingKey (List.replicate n 0)) (.complete .unavailable), _, _, rfl, rfl, rfl, rfl, rfl, ?_, ?_, ?_⟩ <;>
      simp only [List.mem_cons, List.not_mem_nil, or_false] at hn <;> rcases hn with rfl | rfl <;> decide
  · exact fun n _ => ⟨next1 (loaded .ecb countingKey (List.replicate n 0)) (.complete .unavailable), _, _, rfl, rfl, rfl, rfl,
      rfl, List.length_replicate⟩
  · exact fun a _ => ⟨next1 (loaded .enc countingKey plainV76) (.complete a), _, rfl, rfl, rfl, rfl, rfl⟩

theorem witness_CompletionLeavesOnlyTheOutcome : ∃ s k a rest, State.inputs s = .complete a :: rest ∧
    s.engine.busy = true ∧ s.engine.op = some k ∧ s.engine.keycnt = 32 ∧ s.engine.ilen = 4 :=
  ⟨next1 (loaded .enc countingKey plainV76) (.complete .unavailable), .enc, _, _, rfl, rfl, rfl, rfl, rfl⟩

/-- A step that asks the random source, scheduled and where the environment is quiet, and steps that do not: of a DEC, of an
ENC with a bad key where the environment is quiet, and the reset that abandons an ENC. -/
theorem witness_RandomSourceAskedOnlyByEnc :
    (∃ s t : State, step s = .next t ∧ s.engine.busy = true ∧ s.engine.op = some .enc ∧ s.engine.keycnt = 32 ∧
      s.engine.iovf = false ∧ (∃ a rest, s.inputs = .complete a :: rest)) ∧
    (∃ s t : State, step s = .next t ∧ s.engine.busy = true ∧ s.engine.op = some .enc ∧ s.engine.keycnt = 32 ∧
      s.engine.iovf = false ∧ s.inputs = []) ∧
    (∃ s t : State, step s = .next t ∧ s.engine.busy = true ∧ s.engine.op = some .dec) ∧
    (∃ s t : State, step s = .next t ∧ s.engine.busy = true ∧ s.engine.op = some .enc ∧ s.engine.keycnt ≠ 32 ∧
      s.inputs = []) ∧
    (∃ s t : State, step s = .next t ∧ s.engine.busy = true ∧ s.engine.op = some .enc ∧ s.inputs = [.reset]) :=
  ⟨⟨next1 (loaded .enc countingKey plainV76) (.complete .unavailable), _, rfl, rfl, rfl, rfl, rfl, _, _, rfl⟩,
   ⟨holding (loaded .enc countingKey plainV76), _, rfl, rfl, rfl, rfl, rfl, rfl⟩,
   ⟨next1 (started .dec) (.complete .unavailable), _, rfl, rfl, rfl⟩,
   ⟨holding (started .enc), _, rfl, rfl, rfl, by decide, rfl⟩,
   ⟨next1 (loaded .enc countingKey plainV76) .reset, _, rfl, rfl, rfl, rfl⟩⟩

theorem witness_IvIsTheAnswerAsDelivered : ∃ s iv rest, State.inputs s = .complete (.bytes iv) :: rest ∧
    s.engine.busy = true ∧ s.engine.op = some .enc ∧ s.engine.keycnt = 32 ∧ s.engine.iovf = false :=
  ⟨next1 (loaded .enc countingKey plainV76) (.complete (.bytes countingIv)), _, _, rfl, rfl, rfl, rfl, rfl⟩

/-- An idle state that still holds an earlier outcome, with inputs and keys on both sides of the two tests. -/
theorem witness_CallSequenceIsTheFunction : ∃ s : State, s.engine.busy = false ∧ s.engine.done = true ∧ s.icap.val = 32 ∧
    (List.replicate 32 (0 : Byte)).length ≤ s.icap.val ∧ ¬(List.replicate 33 (0 : Byte)).length ≤ s.icap.val ∧
    (List.replicate 31 (0 : Byte)).length ≠ 32 :=
  ⟨{ holding (holdsResult .dec [0x74]) with icap := cap32 }, rfl, rfl, rfl, by decide, by decide, by decide⟩

theorem witness_GmulIsFieldMultiplication : (0x53 : Byte) ≠ 0x00 ∧ gmul 0x53 0xCA = 0x01 := by decide +kernel

/-- The index 0 with inverse taken as 0, and an index with its inverse. -/
theorem witness_SboxIsAffineOfInverse :
    (if (0x00 : Byte) = 0x00 then (0x00 : Byte) = 0x00 else gmul 0x00 0x00 = 0x01) ∧
    (if (0x53 : Byte) = 0x00 then (0xCA : Byte) = 0x00 else gmul 0x53 0xCA = 0x01) := by decide +kernel

theorem witness_TransformationsByRowAndColumn : ∃ r c, r < 4 ∧ c < 4 ∧ Block.cell countingIv r c = 0x0F :=
  ⟨3, 3, by decide, by decide, by decide⟩

theorem witness_KeyExpansionRecurrence : (List.replicate 32 (0x00 : Byte)).length = 32 ∧
    (8 ≤ 8 ∧ 8 < 60 ∧ 8 % 8 = 0) ∧ (8 ≤ 12 ∧ 12 < 60 ∧ 12 % 8 = 4) ∧ (8 ≤ 59 ∧ 59 < 60 ∧ 59 % 8 = 3) := by decide

/-- Two blocks with one cipher: the same block. -/
theorem witness_CipherIsAPermutation : ∃ (w : RoundKeys) (x y : Block), cipher w x = cipher w y :=
  ⟨keyExpansion (List.replicate 32 0), .zero, .zero, rfl⟩

/-- Whole blocks that unpad and whole blocks that do not, the empty sequence among them. -/
theorem witness_UnpadStripsExactlyThePadding :
    (16 ∣ (List.replicate 16 (0x10 : Byte)).length ∧ unpad (List.replicate 16 0x10) = .ok []) ∧
    (16 ∣ ([] : List Byte).length ∧ unpad [] = .error .paddingError) := by decide

theorem witness_UnpadUndoesPad : 16 ∣ (plainV76 ++ List.replicate 12 (0x0C : Byte)).length ∧
    unpad (plainV76 ++ List.replicate 12 0x0C) = .ok plainV76 := by decide

/-- A chain of two blocks: the first, and the second with the ciphertext block before it. -/
theorem witness_FeedbackChainBlockByBlock : ∀ f : Block → Block, ∃ c,
    [countingIv, Block.zero][0]? = some countingIv ∧ [countingIv, Block.zero][0 + 1]? = some Block.zero ∧
    (cfbEncBlocks f Block.zero [countingIv, Block.zero])[0]? = some c :=
  fun _ => ⟨_, rfl, rfl, rfl⟩

theorem witness_FeedbackDecryptionUndoesEncryption : 16 ∣ (countingIv.toBytes ++ cipherV76).length := by decide

theorem witness_FramingErrorExactly : (List.replicate 32 (0 : Byte)).length = 32 ∧ countingIv.toBytes.length = 16 := by
  decide

theorem witness_BlobLength :
    (∃ key p blob iv, encrypt key (.bytes iv) p = .ok blob ∧ p.length ≤ cap32.val) ∧
    (∃ key p blob, decrypt key blob = .ok p ∧ blob.length ≤ cap32.val) :=
  ⟨⟨List.replicate 32 0, plainV76, _, countingIv, rfl, by decide⟩, ⟨_, _, _, test_decrypt, by decide⟩⟩

theorem witness_DecryptUndoesEncrypt : (List.replicate 32 (0x00 : Byte)).length = 32 := by decide

/-- The first and the last bit of the ciphertext part of the blob of V76. -/
theorem witness_FlippedBitNeverReproducesThePlaintext :
    ∃ key blob p, decrypt key blob = .ok p ∧ (16 ≤ 16 ∧ blob[16]? = some 0xC2 ∧ 0 < 8) ∧
      (16 ≤ 31 ∧ blob[31]? = some 0x05 ∧ 7 < 8) :=
  ⟨_, _, _, test_decrypt, by decide, by decide⟩

theorem witness_DifferentIvsGiveDifferentBlobs : (List.replicate 32 (0 : Byte)).length = 32 ∧ countingIv ≠ Block.zero := by
  decide

/-- The invariant, and a step from a state that meets it. -/
theorem witness_StepKeepsTheInvariant : EngineInv busyOverflowed ∧ ∃ t, step { busyOverflowed with inputs := [.reset] } = .next t :=
  ⟨witness_ReachableStatusValues.1.1, _, rfl⟩

theorem witness_MachineNeverStops : EngineInv busyOverflowed := witness_ReachableStatusValues.1.1

/-- Two engines with different keys and inputs that a host cannot tell apart. -/
theorem witness_ResponsesRevealNoSecret : ∃ s t : State, SameToHost s.engine t.engine ∧ s.engine ≠ t.engine :=
  ⟨holding { Engine.reset with keycnt := 5 }, holding { Engine.reset with mem := ⟨countingKey, [0x11], []⟩ },
    by constructor <;> rfl, by decide +kernel⟩

/-- Two machines with different keys and inputs of the same lengths, and two commands to come. -/
theorem witness_SecretsStayHiddenUntilCompletion : ∃ (s t : State) (n : Nat), LowEq s t ∧
    (∀ ev ∈ s.inputs, ev.isHostOrReset = true) ∧ n ≤ s.inputs.length ∧ n = 2 ∧ s ≠ t :=
  ⟨{ holding { Engine.reset with mem := ⟨countingKey, [0x22], []⟩ } with inputs := [.command 0x01000042, .command 0x20000000] },
   { holding { Engine.reset with mem := { Memory.reset with ibuf := [0x11] } } with
      inputs := [.command 0x01000042, .command 0x20000000] }, 2,
   by constructor <;> first | rfl | (constructor <;> rfl), by decide, by decide, rfl, by decide +kernel⟩

/-- Two engines with different inputs that fail with the same error. -/
theorem witness_FailuresRevealOnlyTheirKind : ∃ (d e : Engine) (k : OpKind) (a b : RngAnswer), d.op = some k ∧
    e.op = some k ∧ (d.complete k a).err ≠ none ∧ (d.complete k a).err = (e.complete k b).err ∧ d ≠ e :=
  ⟨{ started .dec with keycnt := 31 }, { started .dec with keycnt := 33, iovf := true }, .dec, .unavailable, .unavailable,
    rfl, rfl, by decide, rfl, by decide +kernel⟩

/-- Reset in the busy window of an ENC, with a command still to come, a response given and a request made. -/
theorem witness_ResetEventTouchesOnlyTheEngine : ∃ (s : State) (rest : List Event), s.inputs = .reset :: rest ∧
    rest ≠ [] ∧ s.out ≠ [] ∧ s.rngReq = 1 ∧ s.engine.busy = true :=
  ⟨{ holding (loaded .enc countingKey plainV76) with
      inputs := [.reset, .command 0x20000000]
      out := [0x00000000]
      rngReq := 1 }, [.command 0x20000000], rfl, by decide, by decide, rfl, rfl⟩

end Sys2Proof.Tests
end

section
/-! The reset values of the engine (R31), and the two ways back to them: a reset event (R180) and CLR (R138). -/

namespace Sys2Proof.Machine

/-- The round-key store of the reset engine reads zero at every index. -/
theorem Engine.reset_w_word (j : Nat) : RoundKeys.word Engine.reset.w j = AesWord.zero := by
  have hw : Engine.reset.w.toList = List.replicate 60 AesWord.zero := Vector.toList_replicate
  rw [RoundKeys.word, hw, List.getD_eq_getElem?_getD, List.getElem?_getD_replicate_default_eq]

/-- With no flag set and no code in `ERR` and `OP`, every field of STATUS is zero (R21). -/
theorem Engine.reset_status : Engine.reset.status = 0x0000 := by decide

/-- A reset event leaves the reset engine and takes itself off the list of events. -/
theorem step_reset {s : State} {rest : List Event} (h : s.inputs = .reset :: rest) :
    step s = .next { s with engine := Engine.reset, inputs := rest } := by
  rw [step_cons h]
  rfl

/-- CLR while idle leaves the reset engine and answers ACK. -/
theorem exec_clr_idle {s : State} (h : s.engine.busy = false) :
    exec .clr s = .next { s with engine := Engine.reset, out := s.out ++ [0x00000000] } := by
  change unlessBusy s (answer s s.engine.clear .ack) = _
  rw [unlessBusy_idle h, Engine.clear_eq_reset, answer_eq]
  rfl

/-- Settles O14: `Engine.reset` holds each value of the table of R31, and a reset event and CLR both leave it. -/
theorem stateAfterReset : Obligations.StateAfterReset :=
  ⟨fun _ ha => memRead_reset_keybuf ha, rfl, rfl, rfl, rfl, rfl, rfl, rfl, rfl, rfl, Engine.reset_status,
    fun j _ => Engine.reset_w_word j, rfl, rfl,
    fun _ _ h => ⟨_, step_reset h, rfl⟩,
    fun _ h => exec_clr_idle h⟩

end Sys2Proof.Machine
end

section
/-! The decode tests of R59 as equations, one a test, and the opcode map of R58 read field by field. -/

namespace Sys2Proof

/-! The decoder (R59). -/

/-- Test 1: a word with reserved bits set is refused. -/
theorem decode_of_rsv_ne {c : Word} (h : (fieldsOf c).rsv ≠ 0) : decode c = .error .reservedBits := by
  simp only [decode, if_pos h]

/-- Test 2: a word whose operation code is not assigned is refused. -/
theorem decode_of_unassigned {c : Word} (hr : (fieldsOf c).rsv = 0) (ho : mnemonicOf (fieldsOf c).opc = none) :
    decode c = .error .reservedOpcode := by
  simp only [decode, hr, ho, ne_eq, not_true_eq_false, if_false]

/-- Test 3: a word with an assigned operation code is that command, unless it has a byte the command does not take. -/
theorem decode_of_assigned {c : Word} {m : Mnemonic} (hr : (fieldsOf c).rsv = 0)
    (ho : mnemonicOf (fieldsOf c).opc = some m) :
    decode c = if m.takesByte = true ∨ (fieldsOf c).imm = 0 then .ok (m.command (fieldsOf c).imm)
      else .error .strayImmediate := by
  simp only [decode, hr, ho, ne_eq, not_true_eq_false, if_false]
  cases m <;> simp [Mnemonic.takesByte, Mnemonic.command, bareCommand]

@[simp] theorem Mnemonic.command_mnemonic (m : Mnemonic) (imm : Byte) : (m.command imm).mnemonic = m := by
  cases m <;> rfl

/-- The words that are commands of a given mnemonic, by their fields (R58, R59). -/
theorem decodes_to_mnemonic_iff (c : Word) (m : Mnemonic) :
    (∃ i, decode c = .ok i ∧ i.mnemonic = m) ↔
      (fieldsOf c).opc = m.opc ∧ (fieldsOf c).rsv = 0 ∧ (m.takesByte = true ∨ (fieldsOf c).imm = 0) := by
  constructor
  · rintro ⟨i, hi, rfl⟩
    by_cases hr : (fieldsOf c).rsv = 0
    · cases ho : mnemonicOf (fieldsOf c).opc with
      | none => simp [decode_of_unassigned hr ho] at hi
      | some m =>
        rw [decode_of_assigned hr ho] at hi
        split at hi
        next hb =>
          cases hi
          rw [Mnemonic.command_mnemonic]
          exact ⟨mnemonicOf_eq_some.mp ho, hr, hb⟩
        next => cases hi
    · simp [decode_of_rsv_ne hr] at hi
  · rintro ⟨ho, hr, hb⟩
    exact ⟨_, by rw [decode_of_assigned hr (mnemonicOf_eq_some.mpr ho), if_pos hb], m.command_mnemonic _⟩

/-! The opcode map (R58). -/

/-- Two words are the same word exactly when they have the same fields. -/
theorem fieldsOf_inj {c d : Word} : fieldsOf c = fieldsOf d ↔ c = d :=
  ⟨fun h => by rw [← word_fieldsOf c, h, word_fieldsOf], congrArg fieldsOf⟩

/-- A mask acts on each field by itself. -/
theorem fieldsOf_and (c d : Word) : fieldsOf (c &&& d) =
    ⟨(fieldsOf c).opc &&& (fieldsOf d).opc, (fieldsOf c).rsv &&& (fieldsOf d).rsv,
      (fieldsOf c).imm &&& (fieldsOf d).imm⟩ := by
  simp only [fieldsOf, BitVec.extractLsb'_and]

/-- The pattern of every row is its operation code followed by zeros. -/
theorem fieldsOf_pattern : ∀ row ∈ opcodeRows, fieldsOf row.pattern = ⟨row.mnemonic.opc, 0, 0⟩ := by decide

/-- The mask of every row covers the code and the reserved bits, and `IMM` where the command takes no byte. -/
theorem fieldsOf_mask : ∀ row ∈ opcodeRows, fieldsOf row.mask =
    ⟨BitVec.allOnes 8, BitVec.allOnes 16, if row.mnemonic.takesByte then 0 else BitVec.allOnes 8⟩ := by decide

/-- Every mnemonic has a row. -/
theorem exists_opcodeRow (m : Mnemonic) : ∃ row ∈ opcodeRows, row.mnemonic = m := by
  cases m <;> decide

/-- The words that match a row under its mask, by their fields. -/
theorem matches_row_iff {row : OpcodeRow} (h : row ∈ opcodeRows) (c : Word) :
    c &&& row.mask = row.pattern ↔
      (fieldsOf c).opc = row.mnemonic.opc ∧ (fieldsOf c).rsv = 0 ∧
        (row.mnemonic.takesByte = true ∨ (fieldsOf c).imm = 0) := by
  rw [← fieldsOf_inj, fieldsOf_and, fieldsOf_mask row h, fieldsOf_pattern row h, CommandFields.mk.injEq,
    BitVec.and_allOnes, BitVec.and_allOnes]
  cases row.mnemonic.takesByte with
  | true => simp
  | false => simp only [Bool.false_eq_true, if_false, false_or, BitVec.and_allOnes]

/-- A word matches a row exactly when it decodes to a command of the row's mnemonic. -/
theorem matches_row_iff_decodes {row : OpcodeRow} (h : row ∈ opcodeRows) (c : Word) :
    c &&& row.mask = row.pattern ↔ ∃ i, decode c = .ok i ∧ i.mnemonic = row.mnemonic :=
  (matches_row_iff h c).trans (decodes_to_mnemonic_iff c row.mnemonic).symm

/-- Settles O3: a row's mask and pattern ask of the fields what the decode tests ask of them, and every mnemonic has a
row. -/
theorem opcodeMapIsTheLegalityTest : Obligations.OpcodeMapIsTheLegalityTest := by
  refine ⟨fun row hrow c => matches_row_iff_decodes hrow c, fun c => ⟨?_, ?_⟩⟩
  · rintro ⟨i, hi⟩
    obtain ⟨row, hrow, hm⟩ := exists_opcodeRow i.mnemonic
    exact ⟨row, hrow, (matches_row_iff_decodes hrow c).mpr ⟨i, hi, hm.symm⟩⟩
  · rintro ⟨row, hrow, hc⟩
    obtain ⟨i, hi, _⟩ := (matches_row_iff_decodes hrow c).mp hc
    exact ⟨i, hi⟩

namespace Machine

/-- An answered step appends the response word to the responses. -/
theorem hostStep_out (c : Word) (s : State) :
    ∃ (t : State) (r : Response), hostStep c s = .next t ∧ t.out = s.out ++ [r.word] := by
  obtain ⟨e, r, h⟩ := hostStep_is_answer c s
  exact ⟨_, r, h.trans (answer_eq ..), rfl⟩

/-- Settles O7: the layout of `Response.word` field by field, and every HOST step is an answer. -/
theorem responseWordFormat : Obligations.ResponseWordFormat :=
  ⟨fun r => ⟨r.word_kind, r.word_zero, r.word_val, r.word_toNat⟩, hostStep_out⟩

end Machine

end Sys2Proof
end

section
/-! Padding and its inverse (R101 to R104): `Unpad` succeeds exactly on the padded sequences. -/

namespace Sys2Proof

/-- The length of a padded sequence: the next multiple of 16 above the length (R102). -/
theorem pad_length (p : List Byte) : (pad p).length = 16 * (p.length / 16 + 1) := by
  simp only [pad, List.length_append, List.length_replicate, padCount, blk]
  omega

/-- The number of padding bytes is the one number between 1 and 16 that fills up to a multiple of 16. -/
theorem eq_padCount {len n : Nat} (h1 : 1 ≤ n) (h16 : n ≤ 16) (hd : 16 ∣ len + n) : n = padCount len := by
  unfold padCount blk
  omega

/-- Settles O44: the count of `pad` is `padCount`, whose bounds and defining equation are the ones asked. -/
theorem padFillsUpToABlock : Obligations.PadFillsUpToABlock := by
  intro p
  obtain ⟨h1, h16⟩ := padCount_bounds p.length
  have hl := pad_length p
  exact ⟨padCount p.length, h1, h16, rfl, rfl, hl, by omega, by omega⟩

/-- `Unpad` on a sequence with a trailing byte: the two tests of R103. -/
theorem unpad_of_getLast? {x : List Byte} {b : Byte} (h : x.getLast? = some b) :
    unpad x = if b.toNat < 1 ∨ 16 < b.toNat then .error .paddingError
      else if (x.drop (x.length - b.toNat)).all (· = b) then .ok (x.take (x.length - b.toNat))
      else .error .paddingError := by
  simp only [unpad, h]

/-- `Unpad` strips `N` bytes of value `N`. -/
theorem unpad_append_replicate (p : List Byte) {n : Nat} (h1 : 1 ≤ n) (h16 : n ≤ 16) :
    unpad (p ++ List.replicate n (BitVec.ofNat 8 n)) = .ok p := by
  have hlast : (p ++ List.replicate n (BitVec.ofNat 8 n)).getLast? = some (BitVec.ofNat 8 n) := by
    rw [List.getLast?_append, List.getLast?_replicate, if_neg (by omega), Option.some_or]
  have hn : (BitVec.ofNat 8 n).toNat = n := Nat.mod_eq_of_lt (by omega)
  have hlen : (p ++ List.replicate n (BitVec.ofNat 8 n)).length - n = p.length := by simp
  rw [unpad_of_getLast? hlast, hn, hlen, if_neg (by omega), List.drop_left, List.take_left, if_pos (by simp)]

/-- A sequence of whole blocks that `Unpad` accepts ends in `N` bytes of value `N`; the other bytes are the result. -/
theorem eq_append_replicate_of_unpad {x p : List Byte} (hx : 16 ∣ x.length) (h : unpad x = .ok p) :
    ∃ n, 1 ≤ n ∧ n ≤ 16 ∧ x = p ++ List.replicate n (BitVec.ofNat 8 n) := by
  rcases List.eq_nil_or_concat' x with rfl | ⟨y, b, rfl⟩
  · cases h
  · rw [unpad_of_getLast? (List.getLast?_concat ..)] at h
    split at h
    next => cases h
    next hb =>
      split at h
      next hall =>
        cases h
        simp only [List.length_append, List.length_singleton] at hx hall ⊢
        refine ⟨b.toNat, by omega, by omega, ?_⟩
        have htail : (y ++ [b]).drop (y.length + 1 - b.toNat) = List.replicate b.toNat b := by
          refine List.eq_replicate_iff.mpr ⟨?_, by simpa using hall⟩
          simp only [List.length_drop, List.length_append, List.length_singleton]
          omega
        rw [BitVec.ofNat_toNat, BitVec.setWidth_eq, ← htail, List.take_append_drop]
      next => cases h

/-- Settles O45: the two directions of `Unpad`'s success, and its one way to fail. -/
theorem unpadStripsExactlyThePadding : Obligations.UnpadStripsExactlyThePadding := by
  refine fun x hx => ⟨fun p => ⟨eq_append_replicate_of_unpad hx, ?_⟩, fun _ => unpad_error⟩
  rintro ⟨n, h1, h16, rfl⟩
  exact unpad_append_replicate p h1 h16

/-- `Unpad` undoes `Pad`. -/
@[simp] theorem unpad_pad (p : List Byte) : unpad (pad p) = .ok p :=
  have ⟨h1, h16⟩ := padCount_bounds p.length
  unpad_append_replicate p h1 h16

/-- `Pad` undoes `Unpad` where it succeeds on whole blocks. -/
theorem pad_of_unpad {x p : List Byte} (hx : 16 ∣ x.length) (h : unpad x = .ok p) : pad p = x := by
  obtain ⟨n, h1, h16, rfl⟩ := eq_append_replicate_of_unpad hx h
  rw [List.length_append, List.length_replicate] at hx
  rw [pad, ← eq_padCount h1 h16 hx]

/-- Settles O46: the two sequences with one outcome are the empty one and a block of zeros, which both fail. -/
theorem unpadUndoesPad : Obligations.UnpadUndoesPad :=
  ⟨unpad_pad, fun _ _ => pad_of_unpad, [], List.replicate 16 0x00, by decide⟩

end Sys2Proof
end

section
/-! Whole-block cipher feedback (R105 to R107): each direction undoes the other, whatever the block function. -/

namespace Sys2Proof

/-- Adding a word twice cancels. -/
@[simp] theorem AesWord.xor_xor_cancel (u v : AesWord) : (u.xor v).xor v = u := by
  simp [AesWord.xor]

/-- Adding a block twice cancels. -/
@[simp] theorem Block.xor_xor_cancel (a b : Block) : (a.xor b).xor b = a := by
  simp [Block.xor]

/-- Decryption undoes encryption: both use the ciphertext block as feedback. -/
@[simp] theorem cfbDecBlocks_cfbEncBlocks (f : Block → Block) (fb : Block) (xs : List Block) :
    cfbDecBlocks f fb (cfbEncBlocks f fb xs) = xs := by
  induction xs generalizing fb with
  | nil => rfl
  | cons x xs ih => simp only [cfbEncBlocks, cfbDecBlocks, Block.xor_xor_cancel, ih]

/-- Encryption undoes decryption, so no two ciphertexts decrypt alike. -/
@[simp] theorem cfbEncBlocks_cfbDecBlocks (f : Block → Block) (fb : Block) (cs : List Block) :
    cfbEncBlocks f fb (cfbDecBlocks f fb cs) = cs := by
  induction cs generalizing fb with
  | nil => rfl
  | cons c cs ih => simp only [cfbEncBlocks, cfbDecBlocks, Block.xor_xor_cancel, ih]

/-- The blocks of `CFBEnc` are the chain on blocks (R105). -/
@[simp] theorem blocksOf_cfbEnc (w : RoundKeys) (iv : Block) (x : List Byte) :
    blocksOf (cfbEnc w iv x) = cfbEncBlocks (cipher w) iv (blocksOf x) := blocksOf_bytesOfBlocks _

/-- The blocks of `CFBDec` are the chain on blocks (R106). -/
@[simp] theorem blocksOf_cfbDec (w : RoundKeys) (iv : Block) (c : List Byte) :
    blocksOf (cfbDec w iv c) = cfbDecBlocks (cipher w) iv (blocksOf c) := blocksOf_bytesOfBlocks _

/-- `CFBEnc` gives whole blocks. -/
theorem cfbEnc_dvd (w : RoundKeys) (iv : Block) (x : List Byte) : 16 ∣ (cfbEnc w iv x).length :=
  Dvd.intro _ (bytesOfBlocks_length _).symm

/-- `CFBDec` gives whole blocks. -/
theorem cfbDec_dvd (w : RoundKeys) (iv : Block) (c : List Byte) : 16 ∣ (cfbDec w iv c).length :=
  Dvd.intro _ (bytesOfBlocks_length _).symm

/-- Two sequences of whole blocks with the same blocks are one sequence. -/
theorem eq_of_blocksOf_eq {x y : List Byte} (hx : 16 ∣ x.length) (hy : 16 ∣ y.length)
    (h : blocksOf x = blocksOf y) : x = y := by
  rw [← bytesOfBlocks_blocksOf hx, h, bytesOfBlocks_blocksOf hy]

/-- `CFBDec` undoes `CFBEnc` on whole blocks. -/
theorem cfbDec_cfbEnc (w : RoundKeys) (iv : Block) {x : List Byte} (hx : 16 ∣ x.length) :
    cfbDec w iv (cfbEnc w iv x) = x :=
  eq_of_blocksOf_eq (cfbDec_dvd ..) hx (by rw [blocksOf_cfbDec, blocksOf_cfbEnc, cfbDecBlocks_cfbEncBlocks])

/-- `CFBEnc` undoes `CFBDec` on whole blocks. -/
theorem cfbEnc_cfbDec (w : RoundKeys) (iv : Block) {c : List Byte} (hc : 16 ∣ c.length) :
    cfbEnc w iv (cfbDec w iv c) = c :=
  eq_of_blocksOf_eq (cfbEnc_dvd ..) hc (by rw [blocksOf_cfbEnc, blocksOf_cfbDec, cfbEncBlocks_cfbDecBlocks])

/-- `CFBEnc` keeps the length of whole blocks. -/
theorem cfbEnc_length (w : RoundKeys) (iv : Block) {x : List Byte} (hx : 16 ∣ x.length) :
    (cfbEnc w iv x).length = x.length := by
  have hl : (cfbEnc w iv x).length = 16 * (x.length / 16) := by
    rw [cfbEnc, bytesOfBlocks_length, cfbEncBlocks_length]
    exact congrArg _ (takeBlocks_length ..)
  rw [hl, Nat.mul_div_cancel' hx]

/-- Settles O48: on blocks for any block function, and on bytes for the cipher. -/
theorem feedbackDecryptionUndoesEncryption : Obligations.FeedbackDecryptionUndoesEncryption :=
  ⟨cfbDecBlocks_cfbEncBlocks, fun w iv _ hx => cfbDec_cfbEnc w iv hx⟩

end Sys2Proof
end

section
/-! The document's two operations (R109 to R114): `decrypt` accepts exactly the blobs that `encrypt` makes. -/

namespace Sys2Proof

/-- The blobs `encrypt` makes under an answer of the random source (R110). -/
theorem encrypt_eq_ok_iff {key p blob : List Byte} {iv : Block} :
    encrypt key (.bytes iv) p = .ok blob ↔
      key.length = 32 ∧ iv.toBytes ++ cfbEnc (keyExpansion key) iv (pad p) = blob := by
  by_cases hk : key.length = 32 <;> simp [encrypt, keyLen, hk]

/-- Under a key of the wrong length `decrypt` fails before it looks at the blob (R111). -/
theorem decrypt_of_key_length_ne {key : List Byte} (hk : key.length ≠ 32) (blob : List Byte) :
    decrypt key blob = .error .invalidKeyLength := if_pos hk

/-- A blob that is not framed is refused (R111). -/
theorem decrypt_of_not_framed {key blob : List Byte} (hk : key.length = 32) (hf : framingOk blob.length = false) :
    decrypt key blob = .error .invalidCiphertextFraming :=
  (if_neg (not_not.mpr hk)).trans (if_pos (by rw [hf]; rfl))

/-- A framed blob is decrypted and unpadded (R111). -/
theorem decrypt_of_framed {key blob : List Byte} (hk : key.length = 32) (hf : framingOk blob.length = true) :
    decrypt key blob =
      unpad (cfbDec (keyExpansion key) (Block.ofBytes (blob.take 16)) (blob.drop 16)) :=
  (if_neg (not_not.mpr hk)).trans (if_neg (by simp [hf]))

/-- The lengths `FramingOK` accepts: the multiples of 16 from 16 on (R109). -/
theorem framingOk_iff_dvd (n : Nat) : framingOk n = true ↔ 16 ∣ n ∧ 16 ≤ n := by
  rw [framingOk_iff]
  omega

/-- What `decrypt` accepts has a key of 32 bytes and is framed. -/
theorem framed_of_decrypt {key blob p : List Byte} (h : decrypt key blob = .ok p) :
    key.length = 32 ∧ framingOk blob.length = true := by
  by_cases hk : key.length = 32
  · cases hf : framingOk blob.length with
    | true => exact ⟨hk, rfl⟩
    | false => rw [decrypt_of_not_framed hk hf] at h; cases h
  · rw [decrypt_of_key_length_ne hk] at h; cases h

/-- Settles O49: a framed blob can fail in `Unpad` only, and 16 bytes leave it the empty sequence. -/
theorem framingErrorExactly : Obligations.FramingErrorExactly := by
  intro key blob hk
  refine ⟨?_, by rw [← framingOk_iff, framingOk_iff_dvd], fun hl => ?_⟩
  · rw [← framingOk_iff]
    cases hf : framingOk blob.length with
    | true =>
      have hne : decrypt key blob ≠ .error .invalidCiphertextFraming := by
        rw [decrypt_of_framed hk hf]
        exact fun h => nomatch unpad_error h
      simp [hne]
    | false => simp [decrypt_of_not_framed hk hf]
  · have hf : framingOk blob.length = true := by rw [hl]; rfl
    rw [decrypt_of_framed hk hf, List.drop_eq_nil_of_le hl.le]
    rfl

/-- A blob is decrypted to its plaintext. -/
theorem decrypt_of_encrypt {key p blob : List Byte} {iv : Block} (h : encrypt key (.bytes iv) p = .ok blob) :
    decrypt key blob = .ok p := by
  obtain ⟨hk, rfl⟩ := encrypt_eq_ok_iff.mp h
  have hf : framingOk (iv.toBytes ++ cfbEnc (keyExpansion key) iv (pad p)).length = true := by
    rw [framingOk_iff_dvd, List.length_append, Block.toBytes_length, cfbEnc_length _ _ (pad_dvd p), pad_length]
    omega
  rw [decrypt_of_framed hk hf, List.take_left' iv.toBytes_length, List.drop_left' iv.toBytes_length,
    Block.ofBytes_toBytes, cfbDec_cfbEnc _ _ (pad_dvd p), unpad_pad]

/-- What decrypts to `p` is the blob of `p` under the IV it begins with. -/
theorem encrypt_of_decrypt {key p blob : List Byte} (h : decrypt key blob = .ok p) :
    encrypt key (.bytes (Block.ofBytes (blob.take 16))) p = .ok blob := by
  obtain ⟨hk, hf⟩ := framed_of_decrypt h
  obtain ⟨hd, h16⟩ := (framingOk_iff_dvd _).mp hf
  have hbody : 16 ∣ (blob.drop 16).length := by
    rw [List.length_drop]
    omega
  rw [decrypt_of_framed hk hf] at h
  refine encrypt_eq_ok_iff.mpr ⟨hk, ?_⟩
  rw [pad_of_unpad (cfbDec_dvd ..) h, cfbEnc_cfbDec _ _ hbody, Block.toBytes_ofBytes (List.length_take_of_le h16),
    List.take_append_drop]

/-- The length of a blob (R113). -/
theorem encrypt_length {key p blob : List Byte} {iv : Block} (h : encrypt key (.bytes iv) p = .ok blob) :
    blob.length = 32 + 16 * (p.length / 16) := by
  obtain ⟨-, rfl⟩ := encrypt_eq_ok_iff.mp h
  rw [List.length_append, Block.toBytes_length, cfbEnc_length _ _ (pad_dvd p), pad_length]
  omega

/-- Settles O50: the length of a blob, which a blob that decrypts has too. -/
theorem blobLength : Obligations.BlobLength := by
  constructor
  · intro key p blob iv h
    have hl := encrypt_length h
    refine ⟨by omega, hl, by omega, by omega, (framingOk_iff_dvd _).mpr (by omega), by omega, by omega, ?_⟩
    intro cap hp
    unfold Capacity.ocap
    omega
  · intro key p blob h
    have hl := encrypt_length (encrypt_of_decrypt h)
    refine ⟨by omega, by omega, ?_⟩
    intro cap hb
    unfold Capacity.ocap
    omega

/-- Settles O51: `encrypt` gives a blob under a key of 32 bytes, and `decrypt` undoes it. -/
theorem decryptUndoesEncrypt : Obligations.DecryptUndoesEncrypt := by
  intro key p iv hk
  have h : encrypt key (.bytes iv) p = .ok _ := encrypt_eq_ok_iff.mpr ⟨hk, rfl⟩
  exact ⟨_, h, decrypt_of_encrypt h⟩

/-- Under one key two blobs that begin alike and decrypt to one plaintext are the same blob. -/
theorem blob_eq_of_decrypt_eq {key p blob blob' : List Byte} (h : decrypt key blob = .ok p)
    (h' : decrypt key blob' = .ok p) (hiv : blob'.take 16 = blob.take 16) : blob' = blob := by
  have he := encrypt_of_decrypt h
  have he' := encrypt_of_decrypt h'
  rw [hiv, he] at he'
  cases he'
  rfl

/-- A flipped bit makes another byte. -/
theorem xor_twoPow_ne (b : Byte) {j : Nat} (hj : j < 8) : b ^^^ BitVec.ofNat 8 (2 ^ j) ≠ b := by
  intro h
  have hz : BitVec.ofNat 8 (2 ^ j) = 0 := by simpa using h
  have hp : 2 ^ j < 2 ^ 8 := Nat.pow_lt_pow_right (by decide) hj
  have hm : 2 ^ j % 2 ^ 8 = 0 := congrArg BitVec.toNat hz
  rw [Nat.mod_eq_of_lt hp] at hm
  exact absurd hm (by positivity)

/-- Settles O52: the flip keeps the length and the IV, so only `Unpad` can fail; one plaintext would need one blob. -/
theorem flippedBitNeverReproducesThePlaintext : Obligations.FlippedBitNeverReproducesThePlaintext := by
  intro key blob p i j b h hi hb hj
  have hne : blob.set i (b ^^^ BitVec.ofNat 8 (2 ^ j)) ≠ blob := by
    intro heq
    obtain ⟨hlt, rfl⟩ := List.getElem?_eq_some_iff.mp hb
    exact xor_twoPow_ne blob[i] hj (by simpa [hlt] using congrArg (·[i]?) heq)
  have hiv : (blob.set i (b ^^^ BitVec.ofNat 8 (2 ^ j))).take 16 = blob.take 16 := List.take_set_of_le hi
  obtain ⟨hk, hf⟩ := framed_of_decrypt h
  cases h' : decrypt key (blob.set i (b ^^^ BitVec.ofNat 8 (2 ^ j))) with
  | ok q =>
    refine Or.inr ⟨q, rfl, ?_⟩
    rintro rfl
    exact hne (blob_eq_of_decrypt_eq h h' hiv)
  | error k =>
    rw [decrypt_of_framed hk (by rwa [List.length_set])] at h'
    exact Or.inl (congrArg _ (unpad_error h'))

end Sys2Proof
end

section
/-! The HOST steps of NOP, RWD and RDB as equations, and what a busy engine answers to every other command
(R131, R136, R137, R139). -/

namespace Sys2Proof.Machine

/-- A busy engine refuses every command but NOP and STAT: NAK_BUSY is the whole change (R139). -/
theorem exec_busy {s : State} {i : Instr} (hb : s.engine.busy = true) (hn : i ≠ .nop) (hs : i ≠ .stat) :
    exec i s = .next { s with out := s.out ++ [0xE0000000] } := by
  have refused : ∀ act, unlessBusy s act = .next { s with out := s.out ++ [0xE0000000] } :=
    fun act => unlessBusy_busy hb act
  cases i with
  | nop => exact absurd rfl hn
  | stat => exact absurd rfl hs
  | _ => exact refused _

/-- NOP answers ACK and changes nothing else, busy or idle (R131). -/
theorem exec_nop (s : State) : exec .nop s = .next { s with out := s.out ++ [0x00000000] } :=
  answer_eq s s.engine .ack

/-- RWD while idle sets the cursor to the first byte and answers ACK (R137). -/
theorem exec_rwd_idle {s : State} (h : s.engine.busy = false) :
    exec .rwd s = .next { s with engine := { s.engine with rptr := 0 }, out := s.out ++ [0x00000000] } :=
  unlessBusy_idle h _

/-- RDB while idle, with no byte under the cursor, answers EMPTY and changes nothing else (R136). -/
theorem exec_rdb_none {s : State} (hi : s.engine.busy = false) (h : memRead s.engine.mem .obuf s.engine.rptr = none) :
    exec .rdb s = .next { s with out := s.out ++ [0x40000000] } :=
  (unlessBusy_idle hi _).trans (readNext_none h)

/-- RDB while idle, with a byte under the cursor, answers that byte and moves the cursor past it (R136). -/
theorem exec_rdb_some {s : State} {v : Byte} (hi : s.engine.busy = false)
    (h : memRead s.engine.mem .obuf s.engine.rptr = some v) :
    exec .rdb s = .next { s with
      engine := { s.engine with rptr := s.engine.rptr + 1 }
      out := s.out ++ [BitVec.ofNat 32 (0x10000000 + v.toNat)] } := by
  rw [← Response.data_word]
  exact (unlessBusy_idle hi _).trans (readNext_some h)

/-- With no result there is no byte at any index. -/
theorem memRead_obuf_of_olen_zero {e : Engine} (h : e.olen = 0) (a : Nat) : memRead e.mem .obuf a = none := by
  rw [memRead_obuf, List.eq_nil_of_length_eq_zero h, List.getElem?_nil]

/-- Settles O23: RWD leaves an idle engine with its cursor at 0, and there RDB reads byte 0 of the result or finds
none. -/
theorem rwdRewinds : Obligations.RwdRewinds := by
  refine ⟨fun s hb => exec_busy hb (by decide) (by decide), fun s hi => ⟨exec_rwd_idle hi, ?_⟩⟩
  intro t ht
  obtain rfl := Host.Outcome.next.inj ((exec_rwd_idle hi).symm.trans ht)
  exact ⟨fun h0 => exec_rdb_none hi (memRead_obuf_of_olen_zero h0 _), fun v hv => ⟨_, exec_rdb_some hi hv, rfl⟩⟩

/-- Settles O16: NOP is not gated on BUSY, and a busy engine refuses every command but NOP and STAT. -/
theorem nopDoesNothing : Obligations.NopDoesNothing := by
  refine ⟨exec_nop, fun s i hb hi => ?_, by decide⟩
  by_contra hne
  obtain ⟨hn, hs⟩ := not_or.mp hne
  exact hi (exec_busy hb hn hs)

end Sys2Proof.Machine
end

section
/-! What a refused command leaves: an illegal word and a command to a busy engine change nothing but the ports (R157). -/

namespace Sys2Proof.Machine

/-- An illegal word, busy or idle, is taken off the list of events and answered NAK_ILLEGAL, and that is the whole
change (R59, R157). -/
theorem step_illegal {s : State} {c : Word} {rest : List Event} {x : Illegal} (hi : s.inputs = .command c :: rest)
    (hd : decode c = .error x) :
    step s = .next { s with inputs := rest, out := s.out ++ [0xF0000000] } := by
  rw [step_cons hi]
  exact (hostStep_illegal hd _).trans (answer_eq _ _ .nakIllegal)

/-- Settles O12: both refusals answer with the engine as it was, the first for any word that does not decode, the second
for any command gated on BUSY. -/
theorem refusedCommandsChangeNothing : Obligations.RefusedCommandsChangeNothing :=
  ⟨fun _ _ _ _ hi hd => step_illegal hi hd, fun _ _ hb hn hs => exec_busy hb hn hs⟩

end Sys2Proof.Machine
end

section
/-! A reset event abandons whatever state it meets, and CLR brings an idle engine to the same place (R180). -/

namespace Sys2Proof.Machine

/-- Settles O13: a reset event leaves `Engine.reset`, which holds each reset value, and so does CLR while idle. -/
theorem resetEventClearsEverything : Obligations.ResetEventClearsEverything := by
  constructor
  · intro s rest h
    exact ⟨_, step_reset h, fun _ ha => memRead_reset_keybuf ha, rfl, rfl, rfl, rfl, rfl, rfl, rfl, rfl, rfl,
      ⟨rfl, rfl, rfl⟩, Engine.reset_status⟩
  · intro s t rest h ht u hu
    obtain rfl := Host.Outcome.next.inj ((step_reset h).symm.trans ht)
    exact ⟨_, exec_clr_idle hu, rfl⟩

end Sys2Proof.Machine
end

section
/-! The proofs of this part are elaborated one after another (the option below has that effect and no other here): beside
the tests above, which wait for each other on their threads, the memory the check allows has room for no more threads. -/

set_option deprecated.oldSectionVars true

section
/-! The cipher under fixed round keys is a permutation of the blocks (R92): each transformation of a round is one, `SubBytes`
because the S-box is, the other two because their fourth iterate is the identity. -/

namespace Sys2Proof

/-- The rows of the inverse of the table of R80, written as the rows of `sboxRows` are: entry `y` is the index at which
`y` stands there. -/
def sboxInvRows : List (BitVec 128) :=
  [ 0x52096ad53036a538bf40a39e81f3d7fb,
    0x7ce339829b2fff87348e4344c4dee9cb,
    0x547b9432a6c2233dee4c950b42fac34e,
    0x082ea16628d924b2765ba2496d8bd125,
    0x72f8f66486689816d4a45ccc5d65b692,
    0x6c704850fdedb9da5e154657a78d9d84,
    0x90d8ab008cbcd30af7e45805b8b34506,
    0xd02c1e8fca3f0f02c1afbd0301138a6b,
    0x3a9111414f67dcea97f2cfcef0b4e673,
    0x96ac7422e7ad3585e2f937e81c75df6e,
    0x47f11a711d29c5896fb7620eaa18be1b,
    0xfc563e4bc6d279209adbc0fe78cd5af4,
    0x1fdda8338807c731b11210592780ec5f,
    0x60517fa919b54a0d2de57a9f93c99cef,
    0xa0e03b4dae2af5b0c8ebbb3c83539961,
    0x172b047eba77d626e169146355210c7d ]

/-- The byte whose S-box is `y`. -/
def sboxInv (y : Byte) : Byte :=
  ((sboxInvRows.getD (y.toNat / 16) 0) >>> (8 * (15 - y.toNat % 16))).setWidth 8

set_option maxRecDepth 4000 in
/-- The two tables undo each other. -/
theorem sboxInv_sbox : ∀ v : Byte, sboxInv (sbox v) = v := by decide

theorem sbox_bijective : Function.Bijective sbox :=
  Finite.injective_iff_bijective.mp (Function.LeftInverse.injective sboxInv_sbox)

/-- A permutation of the bytes, applied to each byte of a word, is a permutation of the words. -/
theorem AesWord.map_bijective {f : Byte → Byte} (h : Function.Bijective f) : Function.Bijective (AesWord.map f) := by
  obtain ⟨g, hl, hr⟩ := Function.bijective_iff_has_inverse.mp h
  refine Function.bijective_iff_has_inverse.mpr ⟨AesWord.map g, fun v => ?_, fun v => ?_⟩
  · simp only [AesWord.map, hl _]
  · simp only [AesWord.map, hr _]

/-- A permutation of the words, applied to each column, is a permutation of the blocks. -/
theorem Block.mapColumns_bijective {f : AesWord → AesWord} (h : Function.Bijective f) :
    Function.Bijective (Block.mapColumns f) := by
  obtain ⟨g, hl, hr⟩ := Function.bijective_iff_has_inverse.mp h
  refine Function.bijective_iff_has_inverse.mpr ⟨Block.mapColumns g, fun s => ?_, fun s => ?_⟩
  · simp only [Block.mapColumns, hl _]
  · simp only [Block.mapColumns, hr _]

/-- A function that is its own inverse after four turns is a permutation. -/
theorem bijective_of_fourth_iterate {α : Type} {f : α → α} (h : ∀ x, f (f (f (f x))) = x) : Function.Bijective f :=
  Function.bijective_iff_has_inverse.mpr ⟨fun x => f (f (f x)), h, h⟩

theorem subBytes_bijective : Function.Bijective subBytes :=
  Block.mapColumns_bijective (AesWord.map_bijective sbox_bijective)

/-- Four rotations of every row by its own number are the identity (R85). -/
theorem shiftRows_bijective : Function.Bijective shiftRows := bijective_of_fourth_iterate fun _ => rfl

/-- Multiplication by `x` is additive (R78). -/
theorem xtime_xor (a b : Byte) : xtime (a ^^^ b) = xtime a ^^^ xtime b := by
  have hred : ∀ p q : Bool, (if (p ^^ q) = true then (0x1B : Byte) else 0x00) =
      (if p = true then 0x1B else 0x00) ^^^ (if q = true then 0x1B else 0x00) := by decide
  simp only [xtime, BitVec.getLsbD_xor, BitVec.shiftLeft_xor_distrib, hred]
  ac_rfl

/-- An additive map that commutes with `xtime` passes through the first factor of a product (R79). -/
theorem gmul_map_left {f : Byte → Byte} (hadd : ∀ a b, f (a ^^^ b) = f a ^^^ f b)
    (hx : ∀ a, xtime (f a) = f (xtime a)) (a b : Byte) : gmul (f a) b = f (gmul a b) := by
  have hzero : f 0x00 = 0x00 := by simpa using hadd 0x00 0x00
  have hstep : ∀ p i, gmulStep b (Prod.map f f p) i = Prod.map f f (gmulStep b p i) := by
    intro p i
    cases hb : b.getLsbD i <;> simp [gmulStep, hb, hadd, hx]
  have hloop := List.foldl_hom (Prod.map f f) (l := List.range 8) (init := (0x00, a)) hstep
  rw [Prod.map_apply, hzero] at hloop
  exact congrArg Prod.fst hloop

/-- One turn of the loop of R79 adds the shifted factor where the bit is set. -/
theorem gmulStep_eq (b p a : Byte) (i : Nat) :
    gmulStep b (p, a) i = (p ^^^ (if b.getLsbD i then a else 0x00), xtime a) := by
  cases h : b.getLsbD i <;> simp [gmulStep, h]

/-- One is neutral (R79): the shifted factors are the eight single bits. -/
theorem gmul_one (v : Byte) : gmul 0x01 v = v := by
  have hrange : List.range 8 = [0, 1, 2, 3, 4, 5, 6, 7] := rfl
  simp only [gmul, hrange, List.foldl_cons, List.foldl_nil, gmulStep_eq]
  apply BitVec.eq_of_getLsbD_eq
  intro j hj
  simp only [BitVec.getLsbD_xor, apply_ite (BitVec.getLsbD · j)]
  interval_cases j <;> simp [xtime]

/-- The multiplier 2 of `MixColumns` (R79). -/
theorem gmul_two (v : Byte) : gmul 0x02 v = xtime v := by
  have h : gmul (xtime 0x01) v = xtime (gmul 0x01 v) := gmul_map_left xtime_xor (fun _ => rfl) 0x01 v
  rwa [gmul_one] at h

/-- The multiplier 3 of `MixColumns` (R79). -/
theorem gmul_three (v : Byte) : gmul 0x03 v = xtime v ^^^ v := by
  have h : gmul (xtime 0x01 ^^^ 0x01) v = xtime (gmul 0x01 v) ^^^ gmul 0x01 v :=
    gmul_map_left (f := fun a => xtime a ^^^ a) (fun a b => by rw [xtime_xor]; ac_rfl) (fun a => xtime_xor _ a) 0x01 v
  rwa [gmul_one] at h

/-- A byte added first, with `xor_comm` and `xor_assoc` the rule that sorts a sum of bytes. -/
theorem byte_xor_left_comm (a b c : Byte) : a ^^^ (b ^^^ c) = b ^^^ (a ^^^ c) := by ac_rfl

/-- Adding a byte twice cancels. -/
theorem byte_xor_cancel_left (a b : Byte) : a ^^^ (a ^^^ b) = b := by simp

/-- The sum of the four bytes of a column. -/
def AesWord.sum (v : AesWord) : Byte := v.b0 ^^^ v.b1 ^^^ v.b2 ^^^ v.b3

/-- `MixColumns` adds to each byte the sum of the column and twice the sum of the byte and the next one. -/
theorem mixColumn_eq (v : AesWord) : mixColumn v =
    ⟨v.b0 ^^^ v.sum ^^^ xtime (v.b0 ^^^ v.b1), v.b1 ^^^ v.sum ^^^ xtime (v.b1 ^^^ v.b2),
     v.b2 ^^^ v.sum ^^^ xtime (v.b2 ^^^ v.b3), v.b3 ^^^ v.sum ^^^ xtime (v.b3 ^^^ v.b0)⟩ := by
  simp only [mixColumn, AesWord.sum, gmul_two, gmul_three, xtime_xor, BitVec.xor_assoc, BitVec.xor_comm,
    byte_xor_left_comm, byte_xor_cancel_left]

/-- `MixColumns` keeps the sum of a column. -/
theorem mixColumn_sum (v : AesWord) : (mixColumn v).sum = v.sum := by
  rw [mixColumn_eq]
  simp only [AesWord.sum, xtime_xor, BitVec.xor_assoc, BitVec.xor_comm, byte_xor_left_comm, byte_xor_cancel_left,
    BitVec.xor_self, BitVec.xor_zero]

/-- `MixColumns` twice adds to each byte four times the sum of the byte and the one opposite. -/
theorem mixColumn_mixColumn (v : AesWord) : mixColumn (mixColumn v) =
    ⟨v.b0 ^^^ xtime (xtime (v.b0 ^^^ v.b2)), v.b1 ^^^ xtime (xtime (v.b1 ^^^ v.b3)),
     v.b2 ^^^ xtime (xtime (v.b2 ^^^ v.b0)), v.b3 ^^^ xtime (xtime (v.b3 ^^^ v.b1))⟩ := by
  rw [mixColumn_eq (mixColumn v), mixColumn_sum, mixColumn_eq v]
  generalize v.sum = t
  simp only [xtime_xor, BitVec.xor_assoc, BitVec.xor_comm, byte_xor_left_comm, byte_xor_cancel_left,
    BitVec.xor_self, BitVec.zero_xor]

/-- The square of `MixColumns` is its own inverse (R86). -/
theorem mixColumn_bijective : Function.Bijective mixColumn := by
  refine bijective_of_fourth_iterate fun v => ?_
  simp only [mixColumn_mixColumn, xtime_xor, BitVec.xor_assoc, BitVec.xor_comm, byte_xor_left_comm,
    BitVec.xor_self, BitVec.xor_zero, BitVec.zero_xor]

/-- `AddRoundKey` is its own inverse (R87). -/
theorem addRoundKey_bijective (w : RoundKeys) (round : Nat) : Function.Bijective (addRoundKey w round) :=
  Function.Involutive.bijective fun _ => Block.xor_xor_cancel ..

theorem fullRound_bijective (w : RoundKeys) (round : Nat) : Function.Bijective (fullRound w · round) :=
  (addRoundKey_bijective w round).comp
    ((Block.mapColumns_bijective mixColumn_bijective).comp (shiftRows_bijective.comp subBytes_bijective))

/-- Rounds that are permutations, one after the other, are a permutation. -/
theorem foldl_bijective {α β : Type} {f : α → β → α} (h : ∀ b, Function.Bijective (f · b)) (bs : List β) :
    Function.Bijective (bs.foldl f) := by
  induction bs with
  | nil => exact Function.bijective_id
  | cons b bs ih => exact ih.comp (h b)

/-- Any full rounds between the first round key and the last round are a permutation (R91). -/
theorem rounds_bijective (w : RoundKeys) (rounds : List Nat) : Function.Bijective fun s =>
    addRoundKey w 14 (shiftRows (subBytes (rounds.foldl (fullRound w) (addRoundKey w 0 s)))) :=
  (addRoundKey_bijective w 14).comp (shiftRows_bijective.comp (subBytes_bijective.comp
    ((foldl_bijective (fullRound_bijective w) rounds).comp (addRoundKey_bijective w 0))))

theorem cipher_bijective (w : RoundKeys) : Function.Bijective (cipher w) := rounds_bijective w (List.range' 1 13)

/-- Settles O43: the cipher is made of permutations. -/
theorem cipherIsAPermutation : Obligations.CipherIsAPermutation :=
  fun w => ⟨fun _ _ h => (cipher_bijective w).injective h, (cipher_bijective w).surjective⟩

end Sys2Proof
end

section
/-! Decoding and encoding undo each other, and the decode tests and the text form by their fields (R55 to R61, R66). -/

namespace Sys2Proof

/-- The fields of a command's word (R55). -/
@[simp] theorem fieldsOf_encode (i : Instr) : fieldsOf (encode i) = ⟨i.mnemonic.opc, 0, i.operand.getD 0⟩ :=
  fieldsOf_word _

/-- A command is made of its mnemonic and its operand byte. -/
@[simp] theorem Instr.command_mnemonic_operand (i : Instr) : i.mnemonic.command (i.operand.getD 0) = i := by
  cases i <;> rfl

/-- A command has a byte only if its mnemonic takes one (R57). -/
theorem Instr.takesByte_or_operand_zero (i : Instr) : i.mnemonic.takesByte = true ∨ i.operand.getD 0 = 0 := by
  cases i <;> simp [Instr.mnemonic, Instr.operand, Mnemonic.takesByte]

/-- The byte of the command made of a mnemonic and a byte is that byte, unless it was dropped. -/
theorem Mnemonic.command_operand {m : Mnemonic} {imm : Byte} (h : m.takesByte = true ∨ imm = 0) :
    (m.command imm).operand.getD 0 = imm := by
  cases m <;> simp_all [Mnemonic.takesByte, Mnemonic.command, Instr.operand]

/-- The decoder reads a command from its word. -/
@[simp] theorem decode_encode (i : Instr) : decode (encode i) = .ok i := by
  have hr : (fieldsOf (encode i)).rsv = 0 := by rw [fieldsOf_encode]
  have ho : mnemonicOf (fieldsOf (encode i)).opc = some i.mnemonic := by
    rw [fieldsOf_encode]
    exact (mnemonicOf_eq_some).mpr rfl
  rw [decode_of_assigned hr ho, fieldsOf_encode, if_pos i.takesByte_or_operand_zero, i.command_mnemonic_operand]

/-- What the decoder reads from a word has that word as its encoding. -/
theorem encode_of_decode {c : Word} {i : Instr} (h : decode c = .ok i) : encode i = c := by
  obtain ⟨ho, hr, hb⟩ := (decodes_to_mnemonic_iff c i.mnemonic).mp ⟨i, h, rfl⟩
  rw [decode_of_assigned hr ((mnemonicOf_eq_some).mpr ho), if_pos hb] at h
  have hi : i.mnemonic.command (fieldsOf c).imm = i := Except.ok.inj h
  have himm : i.operand.getD 0 = (fieldsOf c).imm := by rw [← hi]; exact Mnemonic.command_operand hb
  rw [← fieldsOf_inj, fieldsOf_encode, himm, ← ho, ← hr]

/-- Settles O1: the word of a command has the fields that pass the decode tests, and they make up the command. -/
theorem decodeOfEncodeIsTheCommand : Obligations.DecodeOfEncodeIsTheCommand := decode_encode

/-- Settles O2: the fields of a word that passes the tests are the fields of its command's word. -/
theorem encodeOfDecodeIsTheWord : Obligations.EncodeOfDecodeIsTheWord := fun _ _ => encode_of_decode

/-- Settles O5: the eleven legal words are the encodings of their commands, and the decoder refuses the other three. -/
theorem wordsWrittenOutDecode : Obligations.WordsWrittenOutDecode :=
  ⟨decode_encode .nop, decode_encode (.keyb 0xA5), decode_encode (.datb 0x74), decode_encode .enc, decode_encode .dec,
    decode_encode .ecb, decode_encode .stat, decode_encode .rdl, decode_encode .rdb, decode_encode .rwd,
    decode_encode .clr, by decide⟩

/-- The three refusals of the decoder, each by the field it looks at and the tests before it (R59). -/
theorem decode_eq_error_iff (c : Word) :
    (decode c = .error .reservedBits ↔ (fieldsOf c).rsv ≠ 0) ∧
    (decode c = .error .reservedOpcode ↔ (fieldsOf c).rsv = 0 ∧ mnemonicOf (fieldsOf c).opc = none) ∧
    (decode c = .error .strayImmediate ↔ (fieldsOf c).rsv = 0 ∧
      (mnemonicOf (fieldsOf c).opc).map Mnemonic.takesByte = some false ∧ (fieldsOf c).imm ≠ 0) := by
  by_cases hr : (fieldsOf c).rsv = 0
  · cases ho : mnemonicOf (fieldsOf c).opc with
    | none => simp [decode_of_unassigned hr ho, hr]
    | some m =>
      rw [decode_of_assigned hr ho]
      cases hm : m.takesByte with
      | true => simp [hr, hm]
      | false => by_cases hz : (fieldsOf c).imm = 0#8 <;> simp [hr, hm, hz]
  · simp only [decode_of_rsv_ne hr, ne_eq, hr]
    simp

/-- The codes that are not assigned (R58, R60). -/
theorem mnemonicOf_eq_none_iff (o : BitVec 8) : mnemonicOf o = none ↔
    o.toNat ∉ [0x00, 0x01, 0x02, 0x10, 0x11, 0x12, 0x20, 0x21, 0x22, 0x23, 0x30] := by
  unfold mnemonicOf
  split <;> simp_all

/-- The codes of the nine commands without a byte (R57, R58). -/
theorem mnemonicOf_bare_iff (o : BitVec 8) : (mnemonicOf o).map Mnemonic.takesByte = some false ↔
    o.toNat ∈ [0x00, 0x01, 0x02, 0x10, 0x11, 0x12, 0x20, 0x21, 0x22, 0x23, 0x30] ∧ o.toNat ≠ 0x01 ∧ o.toNat ≠ 0x02 := by
  unfold mnemonicOf
  split <;> simp_all [Mnemonic.takesByte]

/-- Settles O4: the three refusals of the decoder, with the codes of the opcode map written out. -/
theorem decodeTestsInOrder : Obligations.DecodeTestsInOrder := by
  intro c
  obtain ⟨hrsv, hopc, himm⟩ := decode_eq_error_iff c
  rw [mnemonicOf_eq_none_iff] at hopc
  rw [mnemonicOf_bare_iff, and_assoc, and_assoc] at himm
  exact ⟨hrsv, hopc, himm⟩

/-- A line without a problem is the line of a command, and assembles to its word. -/
theorem Line.assemble_eq_none_iff (l : Line) : l.assemble = none ↔ l.problem ≠ none := by
  unfold Line.assemble
  cases l.problem <;> simp

/-- No check of R66 refuses the line of a command. -/
theorem Instr.line_problem (i : Instr) : i.line.problem = none := by
  have h : i.wellFormed = true := by
    cases i with
    | keyb imm => exact Laws.LineWellFormed.keyb imm
    | datb imm => exact Laws.LineWellFormed.datb imm
    | _ => rfl
  exact Option.isNone_iff_eq_none.mp h

/-- The line of a command assembles to the command's word. -/
theorem Instr.line_assemble (i : Instr) : i.line.assemble = some (encode i) := by
  have hb : BitVec.ofNat 8 (i.line.operand.getD 0) = i.operand.getD 0 := by
    cases h : i.operand <;> simp [Instr.line, h]
  simp only [Line.assemble, i.line_problem, hb]
  exact congrArg (some ∘ encode) i.command_mnemonic_operand

/-- What is wrong with a line, by its tokens (R66). -/
theorem Line.problem_ne_none_iff (l : Line) : l.problem ≠ none ↔
    if l.mnemonic.takesByte = true then ∀ n, l.operand = some n → 256 ≤ n else l.operand ≠ none := by
  obtain ⟨m, o⟩ := l
  cases ht : m.takesByte <;> cases o <;> simp [Line.problem, ht]

/-- Settles O6: a line assembles to nothing exactly when a check refuses it, and no check refuses a command's line. -/
theorem linesAssembleToTheirWords : Obligations.LinesAssembleToTheirWords := by
  refine ⟨Instr.line_assemble, fun l => ?_⟩
  have ht : l.mnemonic.takesByte = true ↔ l.mnemonic = .keyb ∨ l.mnemonic = .datb := by
    cases l.mnemonic <;> decide
  rw [l.assemble_eq_none_iff, l.problem_ne_none_iff]
  simp only [ht]

end Sys2Proof
end

section
/-! What KEYB and DATB do to each field of the engine, so that no later proof unfolds them (R132, R133). -/

namespace Sys2Proof.Machine

section
variable (e : Engine) (b : Byte)

@[simp] theorem Engine.pushKey_ibuf : (e.pushKey b).mem.ibuf = e.mem.ibuf := by
  rw [Engine.pushKey_eq]; dsimp only; split <;> rfl
@[simp] theorem Engine.pushKey_obuf : (e.pushKey b).mem.obuf = e.mem.obuf := by
  rw [Engine.pushKey_eq]; dsimp only; split <;> rfl
@[simp] theorem Engine.pushKey_ilen : (e.pushKey b).ilen = e.ilen := congrArg List.length (e.pushKey_ibuf b)
@[simp] theorem Engine.pushKey_olen : (e.pushKey b).olen = e.olen := congrArg List.length (e.pushKey_obuf b)
@[simp] theorem Engine.pushKey_keycnt : (e.pushKey b).keycnt = if e.keycnt ≤ 32 then e.keycnt + 1 else e.keycnt := by
  rw [Engine.pushKey_eq]
@[simp] theorem Engine.pushKey_iovf : (e.pushKey b).iovf = e.iovf := by rw [Engine.pushKey_eq]
@[simp] theorem Engine.pushKey_rptr : (e.pushKey b).rptr = e.rptr := by rw [Engine.pushKey_eq]
@[simp] theorem Engine.pushKey_busy : (e.pushKey b).busy = e.busy := by rw [Engine.pushKey_eq]
@[simp] theorem Engine.pushKey_done : (e.pushKey b).done = e.done := by rw [Engine.pushKey_eq]
@[simp] theorem Engine.pushKey_err : (e.pushKey b).err = e.err := by rw [Engine.pushKey_eq]
@[simp] theorem Engine.pushKey_op : (e.pushKey b).op = e.op := by rw [Engine.pushKey_eq]
@[simp] theorem Engine.pushKey_w : (e.pushKey b).w = e.w := by rw [Engine.pushKey_eq]
@[simp] theorem Engine.pushKey_fb : (e.pushKey b).fb = e.fb := by rw [Engine.pushKey_eq]
@[simp] theorem Engine.pushKey_st : (e.pushKey b).st = e.st := by rw [Engine.pushKey_eq]
end

section
variable (cap : Capacity) (e : Engine) (b : Byte)

@[simp] theorem Engine.pushInput_keybuf : (e.pushInput cap b).mem.keybuf = e.mem.keybuf := by
  rw [Engine.pushInput_eq]; dsimp only; split <;> rfl
@[simp] theorem Engine.pushInput_ibuf :
    (e.pushInput cap b).mem.ibuf = if e.ilen < cap.val then e.mem.ibuf ++ [b] else e.mem.ibuf := by
  rw [Engine.pushInput_eq]; dsimp only; split <;> rfl
@[simp] theorem Engine.pushInput_obuf : (e.pushInput cap b).mem.obuf = e.mem.obuf := by
  rw [Engine.pushInput_eq]; dsimp only; split <;> rfl
@[simp] theorem Engine.pushInput_olen : (e.pushInput cap b).olen = e.olen :=
  congrArg List.length (e.pushInput_obuf cap b)
@[simp] theorem Engine.pushInput_keycnt : (e.pushInput cap b).keycnt = e.keycnt := by rw [Engine.pushInput_eq]
@[simp] theorem Engine.pushInput_iovf : (e.pushInput cap b).iovf = (e.iovf || decide (cap.val ≤ e.ilen)) := by
  rw [Engine.pushInput_eq]
@[simp] theorem Engine.pushInput_rptr : (e.pushInput cap b).rptr = e.rptr := by rw [Engine.pushInput_eq]
@[simp] theorem Engine.pushInput_busy : (e.pushInput cap b).busy = e.busy := by rw [Engine.pushInput_eq]
@[simp] theorem Engine.pushInput_done : (e.pushInput cap b).done = e.done := by rw [Engine.pushInput_eq]
@[simp] theorem Engine.pushInput_err : (e.pushInput cap b).err = e.err := by rw [Engine.pushInput_eq]
@[simp] theorem Engine.pushInput_op : (e.pushInput cap b).op = e.op := by rw [Engine.pushInput_eq]
@[simp] theorem Engine.pushInput_w : (e.pushInput cap b).w = e.w := by rw [Engine.pushInput_eq]
@[simp] theorem Engine.pushInput_fb : (e.pushInput cap b).fb = e.fb := by rw [Engine.pushInput_eq]
@[simp] theorem Engine.pushInput_st : (e.pushInput cap b).st = e.st := by rw [Engine.pushInput_eq]
end

end Sys2Proof.Machine
end

section
/-! What a command does, said once: the engine an idle one is left as, the response, and the one gate on BUSY (R59 test 4,
R131 to R140). -/

namespace Sys2Proof.Machine

/-- The engine a command leaves when it is not refused (R131 to R138, R140). -/
def Engine.after (cap : Capacity) (i : Instr) (e : Engine) : Engine :=
  match i with
  | .nop => e
  | .keyb imm => e.pushKey imm
  | .datb imm => e.pushInput cap imm
  | .enc => e.startOp .enc
  | .dec => e.startOp .dec
  | .ecb => e.startOp .ecb
  | .stat => e
  | .rdl => e
  | .rdb => if e.nextByte.isSome then { e with rptr := e.rptr + 1 } else e
  | .rwd => { e with rptr := 0 }
  | .clr => Engine.reset

/-- The response of a command that is not refused (R131 to R138, R140). -/
def Engine.reply (i : Instr) (e : Engine) : Response :=
  match i with
  | .stat => .status e.status
  | .rdl => .length (BitVec.ofNat 16 e.olen)
  | .rdb => e.nextByte.elim .empty .data
  | _ => .ack

theorem Engine.after_rdb_none {e : Engine} (h : e.nextByte = none) (cap : Capacity) : e.after cap .rdb = e := by
  simp [Engine.after, h]

theorem Engine.after_rdb_some {e : Engine} {v : Byte} (h : e.nextByte = some v) (cap : Capacity) :
    e.after cap .rdb = { e with rptr := e.rptr + 1 } := by
  simp [Engine.after, h]

/-- RDB moves the cursor at most. -/
theorem Engine.after_rdb (cap : Capacity) (e : Engine) : ∃ n, e.after cap .rdb = { e with rptr := n } := by
  cases h : e.nextByte with
  | none => exact ⟨e.rptr, Engine.after_rdb_none h cap⟩
  | some v => exact ⟨e.rptr + 1, Engine.after_rdb_some h cap⟩

/-- An idle engine carries out every command. -/
theorem exec_idle {s : State} (h : s.engine.busy = false) (i : Instr) :
    exec i s = answer s (s.engine.after s.icap i) (s.engine.reply i) := by
  have carried : ∀ act, unlessBusy s act = act := unlessBusy_idle h
  cases i with
  | nop => rfl
  | stat => rfl
  | rdb =>
    cases hv : s.engine.nextByte with
    | none => rw [Engine.after_rdb_none hv, Engine.reply, hv]; exact (carried _).trans (readNext_none hv)
    | some v => rw [Engine.after_rdb_some hv, Engine.reply, hv]; exact (carried _).trans (readNext_some hv)
  | _ => exact carried _

/-- NOP and STAT are not gated on BUSY and leave the engine as it is (R131, R134). -/
theorem exec_ungated (s : State) {i : Instr} (h : i = .nop ∨ i = .stat) :
    exec i s = answer s s.engine (s.engine.reply i) := by
  rcases h with rfl | rfl <;> rfl

/-- What a command does to the machine: it answers, and either leaves the engine as it was or is carried out by an idle
one. -/
theorem exec_cases {i : Instr} {s t : State} (h : exec i s = .next t) :
    ∃ e r, t = { s with engine := e, out := s.out ++ [Response.word r] } ∧
      (e = s.engine ∨ s.engine.busy = false ∧ e = s.engine.after s.icap i) := by
  cases hb : s.engine.busy with
  | false =>
    rw [exec_idle hb, answer_eq] at h
    exact ⟨_, _, (Host.Outcome.next.inj h).symm, .inr ⟨rfl, rfl⟩⟩
  | true =>
    by_cases hi : i = .nop ∨ i = .stat
    · rw [exec_ungated s hi, answer_eq] at h
      exact ⟨_, _, (Host.Outcome.next.inj h).symm, .inl rfl⟩
    · obtain ⟨hn, hs⟩ := not_or.mp hi
      rw [exec_busy hb hn hs] at h
      exact ⟨_, .nakBusy, (Host.Outcome.next.inj h).symm, .inl rfl⟩

/-- What a HOST step does to the machine: it answers, and either the engine is as it was, or the word is that of a command
which an idle engine has carried out. -/
theorem hostStep_cases {c : Word} {s t : State} (h : hostStep c s = .next t) :
    ∃ e r, t = { s with engine := e, out := s.out ++ [Response.word r] } ∧
      (e = s.engine ∨ s.engine.busy = false ∧ ∃ i, c = encode i ∧ e = s.engine.after s.icap i) := by
  cases hd : decode c with
  | error x =>
    rw [hostStep_illegal hd, answer_eq] at h
    exact ⟨_, _, (Host.Outcome.next.inj h).symm, .inl rfl⟩
  | ok i =>
    rw [hostStep_legal hd] at h
    obtain ⟨e, r, ht, he⟩ := exec_cases h
    exact ⟨e, r, ht, he.imp_right fun ⟨hb, he⟩ => ⟨hb, i, (encode_of_decode hd).symm, he⟩⟩

end Sys2Proof.Machine
end

section
/-! What an operation computes and leaves: `Complete` is the document's function on what is loaded (R118 to R122, R94). -/

namespace Sys2Proof.Machine

/-- What an operation computes from what is loaded, its tests in the order of R158. -/
def Engine.outcome (k : OpKind) (a : RngAnswer) (e : Engine) : Except ErrKind (List Byte) :=
  if e.keycnt ≠ 32 then .error .invalidKeyLength
  else if e.iovf then .error .inputOverflow
  else
    match k with
    | .enc => encrypt e.key a e.input
    | .dec => decrypt e.key e.input
    | .ecb =>
      if e.ilen ≠ 16 then .error .invalidBlockLength
      else .ok (blockEncrypt e.key (Block.ofBytes e.input)).toBytes

/-- `ILEN` is the length of the input. -/
@[simp] theorem Engine.input_length (e : Engine) : e.input.length = e.ilen := rfl

/-- `KEYBUF` is always 32 bytes. -/
@[simp] theorem Engine.key_length (e : Engine) : e.key.length = 32 := Memory.bytes_keybuf_length _

theorem Engine.outcome_of_key_ne {e : Engine} (h : e.keycnt ≠ 32) (k : OpKind) (a : RngAnswer) :
    e.outcome k a = .error .invalidKeyLength := if_pos h

theorem Engine.outcome_of_overflow {e : Engine} (hk : e.keycnt = 32) (h : e.iovf = true) (k : OpKind) (a : RngAnswer) :
    e.outcome k a = .error .inputOverflow := by
  simp only [Engine.outcome, hk, h, ne_eq, not_true_eq_false, if_false, if_true]

section
variable {e : Engine} (hk : e.keycnt = 32) (hv : e.iovf = false)
include hk hv

theorem Engine.outcome_enc (a : RngAnswer) : e.outcome .enc a = encrypt e.key a e.input := by
  simp [Engine.outcome, hk, hv]

theorem Engine.outcome_dec (a : RngAnswer) : e.outcome .dec a = decrypt e.key e.input := by
  simp [Engine.outcome, hk, hv]

theorem Engine.outcome_ecb (a : RngAnswer) : e.outcome .ecb a =
    if e.ilen ≠ 16 then .error .invalidBlockLength
    else .ok (blockEncrypt e.key (Block.ofBytes e.input)).toBytes := by
  simp [Engine.outcome, hk, hv]

/-- CompleteENC past its two tests (R121): the feedback loop on the registers is `CFBEnc`. -/
theorem Engine.completeEnc_eq_ended (ho : e.op = some .enc) (a : RngAnswer) :
    e.completeEnc a = Engine.ended .enc (encrypt e.key a e.input) := by
  cases a with
  | unavailable =>
    simpa [Engine.completeEnc, hk, hv, encrypt, keyLen] using Engine.raise_eq_ended ho .randomSourceUnavailable
  | bytes iv =>
    simp only [Engine.completeEnc, hk, hv, ne_eq, not_true_eq_false, if_false, Bool.false_eq_true]
    rw [Engine.epilogue_ok (k := .enc) (by simpa using ho), Engine.cfbEncRun_bytes]
    exact congrArg _ (encrypt_eq_ok_iff.mpr ⟨e.key_length, rfl⟩).symm

/-- CompleteDEC past its two tests (R122): the feedback loop on the registers is `CFBDec`. -/
theorem Engine.completeDec_eq_ended (ho : e.op = some .dec) :
    e.completeDec = Engine.ended .dec (decrypt e.key e.input) := by
  cases hf : framingOk e.ilen with
  | false =>
    rw [decrypt_of_not_framed (blob := e.input) e.key_length hf, ← Engine.raise_eq_ended ho]
    simp [Engine.completeDec, hk, hv, hf]
  | true =>
    rw [decrypt_of_framed (blob := e.input) e.key_length hf]
    simp only [Engine.completeDec, hk, hv, hf, ne_eq, not_true_eq_false, if_false, Bool.false_eq_true, Bool.not_true]
    rw [Engine.finish_eq_ended (k := .dec) (by simpa using ho), Engine.cfbDecRun_bytes]
    rfl

/-- CompleteECB past its two tests (R94). -/
theorem Engine.completeEcb_eq_ended (ho : e.op = some .ecb) :
    e.completeEcb = Engine.ended .ecb (if e.ilen ≠ 16 then .error .invalidBlockLength
      else .ok (blockEncrypt e.key (Block.ofBytes e.input)).toBytes) := by
  by_cases hl : e.ilen = 16
  · simp only [Engine.completeEcb, hk, hv, hl, ne_eq, not_true_eq_false, if_false, Bool.false_eq_true]
    exact Engine.epilogue_ok (k := .ecb) (by simpa using ho) _
  · simpa [Engine.completeEcb, hk, hv, hl] using Engine.raise_eq_ended ho .invalidBlockLength
end

/-- Every operation leaves exactly its outcome (R118 to R122, R94). -/
theorem Engine.complete_eq_ended {e : Engine} {k : OpKind} (ho : e.op = some k) (a : RngAnswer) :
    e.complete k a = Engine.ended k (e.outcome k a) := by
  by_cases hk : e.keycnt = 32
  · cases hv : e.iovf with
    | true =>
      rw [Engine.outcome_of_overflow hk hv, ← Engine.raise_eq_ended ho]
      cases k <;> simp [Engine.complete, Engine.completeEnc, Engine.completeDec, Engine.completeEcb, hk, hv]
    | false =>
      cases k with
      | enc => rw [Engine.outcome_enc hk hv]; exact Engine.completeEnc_eq_ended hk hv ho a
      | dec => rw [Engine.outcome_dec hk hv]; exact Engine.completeDec_eq_ended hk hv ho
      | ecb => rw [Engine.outcome_ecb hk hv]; exact Engine.completeEcb_eq_ended hk hv ho
  · rw [Engine.outcome_of_key_ne hk, ← Engine.raise_eq_ended ho]
    cases k <;> exact if_pos hk

end Sys2Proof.Machine
end

section
/-! What a step is, by the kind of its event (R7, R44). -/

namespace Sys2Proof.Machine

/-- The ENGINE step is the next thing to happen, scheduled or because the environment is quiet (R118, R191). -/
def State.completionNext (s : State) : Prop := s.inputs = [] ∨ ∃ a rest, s.inputs = .complete a :: rest

/-- A step on a command word is the HOST step on that word, taken off the list of events. -/
theorem step_command {s : State} {c : Word} {rest : List Event} (h : s.inputs = .command c :: rest) :
    step s = hostStep c { s with inputs := rest } := step_cons h

/-- A step on the word of a command is `exec` of the command. -/
theorem step_encode {s : State} {i : Instr} {rest : List Event} (h : s.inputs = .command (encode i) :: rest) :
    step s = exec i { s with inputs := rest } := by
  rw [step_command h, hostStep_legal (decode_encode i)]

/-- An ENGINE step, scheduled or quiet, is `engineStep` with some answer of the random source. -/
theorem step_completion {s : State} (h : s.completionNext) :
    ∃ a, step s = engineStep a { s with inputs := s.inputs.tail } := by
  rcases h with hi | ⟨a, rest, hi⟩
  · refine ⟨Config.freeRngAnswer s.rngReq, ?_⟩
    rw [step_nil hi, quietStep, hi, List.tail_nil, ← hi]
  · exact ⟨a, by rw [step_cons hi, hi]; rfl⟩

/-- The next thing to happen is a command word, the ENGINE step or reset. -/
theorem State.next_event (s : State) :
    (∃ c rest, s.inputs = .command c :: rest) ∨ s.completionNext ∨ ∃ rest, s.inputs = .reset :: rest := by
  cases h : s.inputs with
  | nil => exact .inr (.inl (.inl h))
  | cons ev rest =>
    cases ev with
    | command c => exact .inl ⟨c, rest, rfl⟩
    | complete a => exact .inr (.inl (.inr ⟨a, rest, h⟩))
    | reset => exact .inr (.inr ⟨rest, rfl⟩)

/-- What the ENGINE step can do: end the operation in progress with its outcome, or nothing while idle (R118). -/
theorem engineStep_cases {a : RngAnswer} {s t : State} (h : engineStep a s = .next t) :
    (s.engine.busy = true ∧ ∃ k, s.engine.op = some k ∧
      t = { s with
        engine := Engine.ended k (s.engine.outcome k a)
        rngReq := s.rngReq + (s.engine.asksRng k).toNat }) ∨
    (s.engine.busy = false ∧ t = s) := by
  cases hb : s.engine.busy with
  | false =>
    rw [engineStep_idle hb] at h
    exact .inr ⟨rfl, (Host.Outcome.next.inj h).symm⟩
  | true =>
    rw [engineStep_busy hb] at h
    cases ho : s.engine.op with
    | none => simp [completeStep, ho] at h
    | some k =>
      rw [completeStep_latched ho, Engine.complete_eq_ended ho] at h
      exact .inl ⟨rfl, k, rfl, (Host.Outcome.next.inj h).symm⟩

/-- What a step can do: answer a word, carry out an ENGINE step in progress, skip one while idle, or reset. -/
theorem step_cases {s t : State} (h : step s = .next t) :
    (∃ c rest e r, s.inputs = .command c :: rest ∧
      t = { s with inputs := rest, engine := e, out := s.out ++ [Response.word r] } ∧
      (e = s.engine ∨ s.engine.busy = false ∧ ∃ i, c = encode i ∧ e = s.engine.after s.icap i)) ∨
    (s.completionNext ∧ s.engine.busy = true ∧ ∃ k a, s.engine.op = some k ∧
      t = { s with
        inputs := s.inputs.tail
        engine := Engine.ended k (s.engine.outcome k a)
        rngReq := s.rngReq + (s.engine.asksRng k).toNat }) ∨
    (s.completionNext ∧ s.engine.busy = false ∧ t = { s with inputs := s.inputs.tail }) ∨
    (∃ rest, s.inputs = .reset :: rest ∧ t = { s with engine := Engine.reset, inputs := rest }) := by
  rcases s.next_event with ⟨c, rest, hi⟩ | hc | ⟨rest, hi⟩
  · rw [step_command hi] at h
    obtain ⟨e, r, ht, he⟩ := hostStep_cases h
    exact .inl ⟨c, rest, e, r, hi, ht, he⟩
  · obtain ⟨a, ha⟩ := step_completion hc
    rcases engineStep_cases (ha.symm.trans h) with ⟨hb, k, ho, ht⟩ | ⟨hb, ht⟩
    · exact .inr (.inl ⟨hc, hb, k, a, ho, ht⟩)
    · exact .inr (.inr (.inl ⟨hc, hb, ht⟩))
  · rw [step_reset hi] at h
    exact .inr (.inr (.inr ⟨rest, hi, (Host.Outcome.next.inj h).symm⟩))

/-- The ENGINE step of an operation in progress leaves its outcome (R118, R120). -/
theorem step_complete_ended {s : State} {k : OpKind} {a : RngAnswer} {rest : List Event}
    (hi : s.inputs = .complete a :: rest) (hb : s.engine.busy = true) (ho : s.engine.op = some k) :
    step s = .next { s with
      inputs := rest
      engine := Engine.ended k (s.engine.outcome k a)
      rngReq := s.rngReq + (s.engine.asksRng k).toNat } := by
  rw [step_complete hi hb ho, Engine.complete_eq_ended ho]

/-- Settles O11: the HOST step on a word is the command the decoder reads. -/
theorem stepRunsTheDecodedCommand : Obligations.StepRunsTheDecodedCommand := by
  intro s c rest i hi hd
  rw [step_command hi, hostStep_legal hd]

/-- Settles O60: the whole next state of a reset event. -/
theorem resetEventTouchesOnlyTheEngine : Obligations.ResetEventTouchesOnlyTheEngine := fun _ _ => step_reset

/-- Settles O15: the quiet step is a completion with the answer the source would give, or nothing while idle. -/
theorem quietEnvironment : Obligations.QuietEnvironment := by
  constructor
  · intro s hi hb
    rw [step_nil hi, quietStep, engineStep_idle hb]
  · intro s k hi hb ho
    refine ⟨Config.freeRngAnswer s.rngReq, _, ?_, step_complete_ended rfl hb ho, rfl⟩
    rw [step_nil hi, quietStep, engineStep_busy hb, completeStep_latched ho, Engine.complete_eq_ended ho, hi]

/-- Settles O9: of the kinds of step only the answer to a word appends a response. -/
theorem oneResponseForEachCommand : Obligations.OneResponseForEachCommand := by
  intro s t h
  constructor
  · intro c rest hi
    rw [step_command hi] at h
    obtain ⟨e, r, rfl, -⟩ := hostStep_cases h
    exact ⟨r.word, rfl⟩
  · intro hne
    rcases step_cases h with ⟨c, rest, e, r, hi, -⟩ | ⟨-, -, k, a, -, rfl⟩ | ⟨-, -, rfl⟩ | ⟨rest, -, rfl⟩
    · exact absurd hi (hne c rest)
    · rfl
    · rfl
    · rfl

/-- A value that is a byte has eight zero bits above it. -/
theorem zext16_high (v : Byte) : (zext16 v).extractLsb' 8 8 = 0 := by
  apply BitVec.eq_of_getLsbD_eq
  intro j hj
  simp [zext16, hj]

/-- Every response word is of one of the seven kinds (R62, R63). -/
theorem Response.word_legal (r : Response) : legalResponse r.word := by
  have hv : r.word.extractLsb' 8 8 = r.val.extractLsb' 8 8 := by
    rw [← r.word_val]
    apply BitVec.eq_of_getLsbD_eq
    intro j hj
    simp [hj]
  unfold legalResponse
  rw [r.word_zero, r.word_kind, r.word_val, hv]
  cases r <;> simp [Response.kind, Response.val, zext16_high]

/-- Settles O8: a step appends `Response.word` of some response or nothing. -/
theorem responsesStayLegal : Obligations.ResponsesStayLegal := by
  intro s t hs h
  rcases step_cases h with ⟨c, rest, e, r, -, rfl, -⟩ | ⟨-, -, k, a, -, rfl⟩ | ⟨-, -, rfl⟩ | ⟨rest, -, rfl⟩
  · intro w hw
    rcases List.mem_append.mp hw with hw | hw
    · exact hs w hw
    · rw [List.mem_singleton.mp hw]
      exact r.word_legal
  · exact hs
  · exact hs
  · exact hs

/-- BUSY and DONE of the engine a command leaves (R22, R23, R140): only a start command sets BUSY, and only it and CLR
touch DONE, which they clear. -/
theorem Engine.after_flags (cap : Capacity) (i : Instr) (e : Engine) :
    (∃ k : OpKind, i = k.start ∧ (e.after cap i).busy = true ∧ (e.after cap i).done = false ∧
      (e.after cap i).op = some k) ∨
    (i = .clr ∧ e.after cap i = Engine.reset) ∨
    ((e.after cap i).busy = e.busy ∧ (e.after cap i).done = e.done) := by
  cases i with
  | enc => exact .inl ⟨.enc, rfl, rfl, rfl, rfl⟩
  | dec => exact .inl ⟨.dec, rfl, rfl, rfl, rfl⟩
  | ecb => exact .inl ⟨.ecb, rfl, rfl, rfl, rfl⟩
  | clr => exact .inr (.inl ⟨rfl, rfl⟩)
  | keyb imm => simp [Engine.after, Engine.pushKey_eq]
  | datb imm => simp [Engine.after, Engine.pushInput_eq]
  | rdb =>
    obtain ⟨n, hn⟩ := e.after_rdb cap
    rw [hn]
    exact .inr (.inr ⟨rfl, rfl⟩)
  | _ => exact .inr (.inr ⟨rfl, rfl⟩)

/-- Settles O29: the flags of each kind of step, and for a command those of the engine it leaves. -/
theorem onlyTheirEventsChangeBusyAndDone : Obligations.OnlyTheirEventsChangeBusyAndDone := by
  intro s t h
  rcases step_cases h with ⟨c, rest, e, r, hi, rfl, he⟩ | ⟨hc, hb, k, a, -, rfl⟩ | ⟨hc, hb, rfl⟩ | ⟨rest, hi, rfl⟩
  · rcases he with rfl | ⟨hb, i, rfl, rfl⟩
    · simp_all
    · rcases s.engine.after_flags s.icap i with ⟨k, rfl, hb', hd', ho'⟩ | ⟨rfl, he⟩ | ⟨hb', hd'⟩
      · refine ⟨fun _ _ => ⟨k, rest, hi, ho'⟩, ?_, ?_, fun _ _ => .inr ⟨_, rest, hi, .inr ⟨k, rfl⟩⟩⟩
        · simp [hb]
        · simp [hd']
      · refine ⟨?_, ?_, ?_, fun _ _ => .inr ⟨_, rest, hi, .inl rfl⟩⟩ <;> simp [he, hb, Engine.reset]
      · simp_all
  · refine ⟨?_, fun _ _ => hc.imp_right .inl, fun _ _ => ⟨hb, hc⟩, ?_⟩ <;> simp [hb, Engine.ended]
  · simp_all
  · refine ⟨?_, fun _ _ => .inr (.inr ⟨rest, hi⟩), ?_, fun _ _ => .inl ⟨rest, hi⟩⟩ <;> simp [Engine.reset]

/-- The random source is asked by an ENC that has passed its two tests (R119). -/
theorem Engine.asksRng_iff (k : OpKind) (e : Engine) :
    e.asksRng k = true ↔ k = .enc ∧ e.keycnt = 32 ∧ e.iovf = false := by
  cases k <;> simp [Engine.asksRng]

/-- Settles O35: of the kinds of step only the ENGINE step in progress counts requests, by `Engine.asksRng`. -/
theorem randomSourceAskedOnlyByEnc : Obligations.RandomSourceAskedOnlyByEnc := by
  intro s t h
  change (s.engine.busy = true ∧ s.engine.op = some .enc ∧ s.engine.keycnt = 32 ∧ s.engine.iovf = false ∧
      s.completionNext → _) ∧ (¬(s.engine.busy = true ∧ s.engine.op = some .enc ∧ s.engine.keycnt = 32 ∧
      s.engine.iovf = false ∧ s.completionNext) → _)
  rcases step_cases h with ⟨c, rest, e, r, hi, rfl, -⟩ | ⟨hc, hb, k, a, ho, rfl⟩ | ⟨-, hb, rfl⟩ | ⟨rest, hi, rfl⟩
  · simp [State.completionNext, hi]
  · have ha := s.engine.asksRng_iff k
    cases hr : s.engine.asksRng k <;> simp_all
  · simp [hb]
  · simp [State.completionNext, hi]

end Sys2Proof.Machine
end

section
/-! The invariant of the reachable states (R32): it holds at reset, every step keeps it, and it lets every step happen. -/

namespace Sys2Proof.Machine

/-- The invariant speaks of the engine and its capacity only. -/
theorem EngineInv.of_engine {s t : State} (h : EngineInv s) (he : t.engine = s.engine) (hc : t.icap = s.icap) :
    EngineInv t := by
  obtain ⟨_, _, _, _, _⟩ := s
  obtain ⟨_, _, _, _, _⟩ := t
  cases he
  cases hc
  exact ⟨h.1, h.2, h.3, h.4, h.5, h.6, h.7, h.8, h.9⟩

/-- The reset engine meets the invariant at every capacity. -/
theorem engineInv_of_reset {s : State} (h : s.engine = Engine.reset) : EngineInv s := by
  constructor <;> simp [h, Engine.reset, Memory.reset_wf, Engine.olen, Engine.hiddenZero]

/-- An engine that holds an outcome meets the invariant when the result fits `OCAP`. -/
theorem engineInv_of_ended {s : State} {k : OpKind} {r : Except ErrKind (List Byte)} (h : s.engine = Engine.ended k r)
    (hl : (outcomeBytes r).length ≤ s.icap.ocap) : EngineInv s := by
  constructor <;> simp [h, Engine.ended, Engine.reset, Memory.wf_iff, Memory.reset, Engine.olen, Engine.hiddenZero, hl]
  cases r <;> simp [outcomeErr, outcomeBytes]

/-- The result of an operation on an input that fits `ICAP` fits `OCAP` (R113). -/
theorem Engine.outcome_length_le {cap : Capacity} {e : Engine} (h : e.ilen ≤ cap.val) (k : OpKind) (a : RngAnswer) :
    (outcomeBytes (e.outcome k a)).length ≤ cap.ocap := by
  cases hr : e.outcome k a with
  | error x => exact Nat.zero_le _
  | ok out =>
    have hk : e.keycnt = 32 := by
      by_contra hk
      rw [Engine.outcome_of_key_ne hk] at hr
      cases hr
    have hv : e.iovf = false := by
      by_contra hv
      rw [Engine.outcome_of_overflow hk (by simpa using hv)] at hr
      cases hr
    change out.length ≤ cap.ocap
    cases k with
    | enc =>
      rw [Engine.outcome_enc hk hv] at hr
      cases a with
      | unavailable => simp [encrypt, keyLen] at hr
      | bytes iv =>
        have hl := encrypt_length hr
        rw [Engine.input_length] at hl
        unfold Capacity.ocap
        omega
    | dec =>
      rw [Engine.outcome_dec hk hv] at hr
      exact (blobLength.2 _ _ _ hr).2.2 cap h
    | ecb =>
      rw [Engine.outcome_ecb hk hv] at hr
      split at hr
      · cases hr
      · cases hr
        rw [Block.toBytes_length]
        unfold Capacity.ocap
        omega

section
variable {s : State} (h : EngineInv s)
include h

/-- Starting an operation keeps the invariant: the flags become those of (d), and there is no result. -/
theorem EngineInv.startOp (k : OpKind) : EngineInv { s with engine := s.engine.startOp k } := by
  obtain ⟨hk, hm, -, -, -, -, -, hv, hz⟩ := h
  constructor <;> simp [Engine.olen, Engine.hiddenZero, Memory.clearOutput_wf hm, hk]
  · exact hv
  · exact hz

/-- KEYB keeps the invariant: its count stops at 33, and nothing else that the invariant speaks of changes. -/
theorem EngineInv.pushKey (hb : s.engine.busy = false) (imm : Byte) :
    EngineInv { s with engine := s.engine.pushKey imm } := by
  obtain ⟨hk, hm, hr, -, he, -, hdo, hv, hz⟩ := h
  constructor <;> simp [Engine.hiddenZero, Memory.wf_iff, hb]
  · split <;> omega
  · exact (Memory.wf_iff ..).mp hm
  · exact hr
  · exact he
  · exact hdo
  · exact hv
  · exact hz

/-- DATB keeps the invariant: there is room for the byte, or the input is full when the flag is set. -/
theorem EngineInv.pushInput (hb : s.engine.busy = false) (imm : Byte) :
    EngineInv { s with engine := s.engine.pushInput s.icap imm } := by
  obtain ⟨hk, hm, hr, -, he, -, hdo, hv, hz⟩ := h
  obtain ⟨hil, hol⟩ := (Memory.wf_iff ..).mp hm
  have hlen : (s.engine.pushInput s.icap imm).ilen ≤ s.icap.val := by
    rw [Engine.pushInput_ilen]
    split
    · assumption
    · exact hil
  constructor <;> simp [Engine.hiddenZero, Engine.pushInput_ilen, hb, hk]
  · exact (Memory.wf_iff ..).mpr ⟨hlen, by rwa [Engine.pushInput_obuf]⟩
  · exact hr
  · exact he
  · exact hdo
  · intro hf
    have hfull : s.engine.ilen = s.icap.val := hf.elim hv (le_antisymm hil)
    rw [if_neg hfull.not_lt, hfull]
  · exact hz

/-- Moving the cursor inside the result of an idle engine keeps the invariant. -/
theorem EngineInv.moveCursor (hb : s.engine.busy = false) {n : Nat} (hn : n ≤ s.engine.olen) :
    EngineInv { s with engine := { s.engine with rptr := n } } :=
  { h with rptr_le := hn, busy_clean := fun hb' => absurd (hb.symm.trans hb') (by decide) }

/-- A command carried out by an idle engine keeps the invariant. -/
theorem EngineInv.after (hb : s.engine.busy = false) (i : Instr) :
    EngineInv { s with engine := s.engine.after s.icap i } := by
  cases i with
  | keyb imm => exact h.pushKey hb imm
  | datb imm => exact h.pushInput hb imm
  | enc => exact h.startOp .enc
  | dec => exact h.startOp .dec
  | ecb => exact h.startOp .ecb
  | rdb =>
    cases hn : s.engine.nextByte with
    | none => rw [Engine.after_rdb_none hn]; exact h
    | some v => rw [Engine.after_rdb_some hn]; exact h.moveCursor hb (List.getElem?_eq_some_iff.mp hn).1
  | rwd => exact h.moveCursor hb (Nat.zero_le _)
  | clr => exact engineInv_of_reset rfl
  | _ => exact h
end

/-- Every step keeps the invariant. -/
theorem EngineInv.step {s t : State} (h : EngineInv s) (hs : step s = .next t) : EngineInv t := by
  rcases step_cases hs with ⟨c, rest, e, r, -, rfl, he⟩ | ⟨-, -, k, a, -, rfl⟩ | ⟨-, -, rfl⟩ | ⟨rest, -, rfl⟩
  · rcases he with rfl | ⟨hb, i, -, rfl⟩
    · exact h.of_engine rfl rfl
    · exact (h.after hb i).of_engine rfl rfl
  · exact engineInv_of_ended rfl (Engine.outcome_length_le ((Memory.wf_iff _ _).mp h.mem_wf).1 k a)
  · exact h.of_engine rfl rfl
  · exact engineInv_of_reset rfl

/-- Settles O55: the invariant is kept by each kind of step. -/
theorem stepKeepsTheInvariant : Obligations.StepKeepsTheInvariant := fun _ _ => EngineInv.step

/-- Settles O54: the state after reset holds the reset engine. -/
theorem resetMeetsTheInvariant : Obligations.ResetMeetsTheInvariant := engineInv_of_reset rfl

/-- With an operation latched whenever it is busy, the engine has an ENGINE step, or skips it. -/
theorem engineStep_enabled {s : State} (h : s.engine.busy = true → s.engine.op ≠ none) (a : RngAnswer) :
    ∃ t, engineStep a s = .next t := by
  cases hb : s.engine.busy with
  | false => exact ⟨s, engineStep_idle hb a⟩
  | true =>
    obtain ⟨k, ho⟩ := Option.ne_none_iff_exists'.mp (h hb)
    exact ⟨_, (engineStep_busy hb a).trans (completeStep_latched ho a)⟩

/-- Settles O56: a word is always answered and reset always happens; the ENGINE step needs a latched operation, which a
busy engine of the invariant has. -/
theorem machineNeverStops : Obligations.MachineNeverStops := by
  intro s h
  rcases s.next_event with ⟨c, rest, hi⟩ | hc | ⟨rest, hi⟩
  · obtain ⟨e, r, ha⟩ := hostStep_is_answer c { s with inputs := rest }
    exact ⟨_, (step_command hi).trans ha⟩
  · obtain ⟨a, ha⟩ := step_completion hc
    rw [ha]
    refine engineStep_enabled (s := { s with inputs := s.inputs.tail }) (fun hb => ?_) a
    obtain ⟨-, -, -, -, hop⟩ := h.busy_clean hb
    exact hop
  · exact ⟨_, step_reset hi⟩

end Sys2Proof.Machine
end

section
/-! STATUS as a number (R21), and the whole effect of each command of an idle engine (R132 to R140). -/

namespace Sys2Proof.Machine

theorem errCode_le (x : Option ErrKind) : errCode x ≤ 6 := by
  rcases x with _ | k
  · exact Nat.zero_le _
  · cases k <;> decide

theorem opCode_le (x : Option OpKind) : opCode x ≤ 3 := by
  rcases x with _ | k
  · exact Nat.zero_le _
  · cases k <;> decide

/-- The operation code 0 is none (R25). -/
theorem one_le_opCode {x : Option OpKind} (h : x ≠ none) : 1 ≤ opCode x := by
  obtain ⟨k, rfl⟩ := Option.ne_none_iff_exists'.mp h
  cases k <;> decide

/-- The fields of STATUS do not overlap and fit 16 bits (R21). -/
theorem Engine.status_toNat (e : Engine) : e.status.toNat =
    e.busy.toNat + 2 * e.done.toNat + 4 * e.iovf.toNat + 16 * errCode e.err + 256 * opCode e.op := by
  have hb := e.busy.toNat_le
  have hd := e.done.toNat_le
  have hv := e.iovf.toNat_le
  have he := errCode_le e.err
  have ho := opCode_le e.op
  exact Nat.mod_eq_of_lt (by omega)

/-- Settles O10: every field of STATUS is a quotient and remainder of its number. -/
theorem statusWordLayout : Obligations.StatusWordLayout := by
  intro e
  have hn := e.status_toNat
  have hb := e.busy.toNat_le
  have hd := e.done.toNat_le
  have hv := e.iovf.toNat_le
  have he := errCode_le e.err
  have ho := opCode_le e.op
  have hbit : ∀ (i : Nat) (p : Bool), e.status.toNat / 2 ^ i % 2 = p.toNat → e.status.getLsbD i = p := by
    intro i p h
    rw [BitVec.getLsbD, Nat.testBit_eq_decide_div_mod_eq, h]
    cases p <;> rfl
  have hfield : ∀ i n, (e.status.extractLsb' i n).toNat = e.status.toNat / 2 ^ i % 2 ^ n := by
    intro i n
    rw [BitVec.extractLsb'_toNat, Nat.shiftRight_eq_div_pow]
  exact ⟨hn, hbit 0 e.busy (by omega), hbit 1 e.done (by omega), hbit 2 e.iovf (by omega),
    hbit 3 false (by rw [Bool.toNat_false]; omega), by rw [hfield]; omega, by rw [hfield]; omega,
    BitVec.eq_of_toNat_eq (by rw [hfield, show BitVec.toNat (0 : BitVec 6) = 0 from rfl]; omega)⟩

/-- The response word that carries the status value. -/
theorem Response.status_word (v : BitVec 16) : (Response.status v).word = BitVec.ofNat 32 (0x20000000 + v.toNat) := by
  apply Response.word_eq_ofNat
  change 2 * 2 ^ 28 + v.toNat = _
  omega

/-- The response word that carries a length. -/
theorem Response.length_word (v : BitVec 16) : (Response.length v).word = BitVec.ofNat 32 (0x30000000 + v.toNat) := by
  apply Response.word_eq_ofNat
  change 3 * 2 ^ 28 + v.toNat = _
  omega

/-- Settles O19: the response of STAT carries the number of STATUS. -/
theorem statReadsTheStatus : Obligations.StatReadsTheStatus := by
  intro s status
  rw [← show s.engine.status.toNat = status from s.engine.status_toNat, ← Response.status_word]
  exact answer_eq s s.engine (.status s.engine.status)

/-- Settles O20: the number of STATUS with the flags that the invariant fixes in each of the three situations. -/
theorem reachableStatusValues : Obligations.ReachableStatusValues := by
  intro s h
  have hn := s.engine.status_toNat
  refine ⟨fun hb => ?_, fun hd => ?_, fun hb hd ho => ?_⟩
  · obtain ⟨hd, he, -, -, ho⟩ := h.busy_clean hb
    refine ⟨?_, one_le_opCode ho⟩
    rw [hn, hb, hd, he]
    rfl
  · have hb : s.engine.busy = false := by
      by_contra hb
      exact h.not_both ⟨by simpa using hb, hd⟩
    refine ⟨?_, one_le_opCode (h.done_op hd)⟩
    rw [hn, hb, hd]
    simp
    omega
  · have he : s.engine.err = none := by
      by_contra he
      obtain ⟨hd', -⟩ := h.err_done he
      exact absurd (hd.symm.trans hd') (by decide)
    rw [hn, hb, hd, he, ho]
    cases s.engine.iovf <;> decide

/-- Settles O21: a result within `OCAP` has a length that fits the sixteen bits of the response. -/
theorem rdlReadsTheLength : Obligations.RdlReadsTheLength := by
  intro s hb hl
  have hcap := s.icap.property.2
  unfold Capacity.ocap at hl
  have hv : (BitVec.ofNat 16 s.engine.olen).toNat = s.engine.olen := Nat.mod_eq_of_lt (by omega)
  have hw := Response.length_word (BitVec.ofNat 16 s.engine.olen)
  rw [hv] at hw
  rw [← hw]
  exact exec_idle hb .rdl

/-- Settles O22: below `OLEN` there is a byte under the cursor, at `OLEN` and above there is none. -/
theorem rdbReadsTheNextByte : Obligations.RdbReadsTheNextByte := by
  refine fun s hb => ⟨fun hlt => ?_, fun hge => exec_rdb_none hb (List.getElem?_eq_none hge)⟩
  have hv : memRead s.engine.mem .obuf s.engine.rptr = some _ := List.getElem?_eq_getElem hlt
  exact ⟨_, hv, exec_rdb_some hb hv⟩

/-- Settles O24: CLR leaves the reset engine, whose values are those of R31. -/
theorem clrReturnsToReset : Obligations.ClrReturnsToReset :=
  fun _ hb => ⟨_, exec_clr_idle hb, rfl, ⟨rfl, rfl, rfl⟩, rfl, Engine.reset_status, fun _ => memRead_reset_keybuf,
    fun _ => ⟨rfl, rfl⟩⟩

/-- A start command while idle latches its operation and answers ACK (R140). -/
theorem exec_start_idle {s : State} (h : s.engine.busy = false) (k : OpKind) :
    exec k.start s = .next { s with engine := s.engine.startOp k, out := s.out ++ [0x00000000] } := by
  cases k <;> exact unlessBusy_idle h _

/-- Settles O27: the whole engine a start command leaves, and its STATUS. -/
theorem startCommandsLatchTheOperation : Obligations.StartCommandsLatchTheOperation := by
  refine fun s hb => ⟨exec_start_idle hb .enc, exec_start_idle hb .dec, exec_start_idle hb .ecb, fun k => ?_⟩
  rw [Engine.status_toNat]
  simp [errCode, opCode]

end Sys2Proof.Machine
end

section
/-! KEYB and DATB byte by byte (R132, R133), and what each command can write at all (R33). -/

namespace Sys2Proof.Machine

/-- Every byte of every buffer after KEYB (R132). -/
theorem Engine.pushKey_memRead (e : Engine) (b : Byte) (sp : Space) (a : Nat) :
    memRead (e.pushKey b).mem sp a =
      if sp = .keybuf ∧ a = e.keycnt ∧ e.keycnt < 32 then some b else memRead e.mem sp a := by
  rw [Engine.pushKey_eq]
  by_cases hk : e.keycnt < 32
  · simp only [hk, if_true, and_true]
    exact memRead_memWrite e.mem .keybuf sp e.keycnt a b hk
  · simp only [hk, if_false, and_false]

/-- Every byte of every buffer after DATB (R133). -/
theorem Engine.pushInput_memRead (cap : Capacity) (e : Engine) (b : Byte) (sp : Space) (a : Nat) :
    memRead (e.pushInput cap b).mem sp a =
      if sp = .ibuf ∧ a = e.ilen ∧ e.ilen < cap.val then some b else memRead e.mem sp a := by
  unfold Engine.pushInput
  split
  next h =>
    simp only [h, and_true]
    exact memRead_memWrite e.mem .ibuf sp e.ilen a b le_rfl
  next h => simp only [h, and_false, if_false]

/-- KEYB while idle appends its byte to the key and answers ACK (R132). -/
theorem exec_keyb_idle {s : State} (h : s.engine.busy = false) (b : Byte) :
    exec (.keyb b) s = .next { s with engine := s.engine.pushKey b, out := s.out ++ [0x00000000] } :=
  unlessBusy_idle h _

/-- DATB while idle appends its byte to the input and answers ACK (R133). -/
theorem exec_datb_idle {s : State} (h : s.engine.busy = false) (b : Byte) :
    exec (.datb b) s = .next { s with engine := s.engine.pushInput s.icap b, out := s.out ++ [0x00000000] } :=
  unlessBusy_idle h _

/-- Settles O17: the whole effect of `Engine.pushKey`. -/
theorem keybAppendsToTheKey : Obligations.KeybAppendsToTheKey := by
  intro b s hb
  have hc := s.engine.pushKey_keycnt b
  refine ⟨_, exec_keyb_idle hb b, rfl, ⟨rfl, rfl, rfl⟩, fun hlt => ?_, fun heq => ?_,
    fun hgt => ?_, s.engine.pushKey_memRead b, ?_⟩
  · exact hc.trans (if_pos hlt.le)
  · exact hc.trans (by rw [if_pos heq.le, heq])
  · exact hc.trans (if_neg hgt.not_ge)
  · simp only [Engine.pushKey_eq]

/-- Settles O18: the whole effect of `Engine.pushInput`. -/
theorem datbAppendsToTheInput : Obligations.DatbAppendsToTheInput := by
  intro b s hb
  have hl := s.engine.pushInput_ilen s.icap b
  have hv := s.engine.pushInput_iovf s.icap b
  refine ⟨_, exec_datb_idle hb b, rfl, ⟨rfl, rfl, rfl⟩, fun hlt => ⟨?_, ?_⟩, fun hge => ⟨?_, ?_⟩,
    s.engine.pushInput_memRead s.icap b, ?_⟩
  · exact hl.trans (if_pos hlt)
  · exact hv.trans (by simp [hlt])
  · exact hl.trans (if_neg hge.not_gt)
  · exact hv.trans (by simp [hge])
  · simp only [Engine.pushInput_eq]

section
variable (cap : Capacity) (e : Engine) {i : Instr}

/-- The key changes under KEYB and CLR only. -/
theorem Engine.after_key (hk : ∀ b, i ≠ .keyb b) (hc : i ≠ .clr) :
    (e.after cap i).keycnt = e.keycnt ∧ (e.after cap i).mem.keybuf = e.mem.keybuf := by
  cases i with
  | keyb b => exact absurd rfl (hk b)
  | clr => exact absurd rfl hc
  | datb b => simp [Engine.after]
  | rdb => obtain ⟨n, hn⟩ := e.after_rdb cap; rw [hn]; exact ⟨rfl, rfl⟩
  | _ => exact ⟨rfl, rfl⟩

/-- The input changes under DATB and CLR only. -/
theorem Engine.after_input (hd : ∀ b, i ≠ .datb b) (hc : i ≠ .clr) :
    (e.after cap i).iovf = e.iovf ∧ (e.after cap i).mem.ibuf = e.mem.ibuf := by
  cases i with
  | datb b => exact absurd rfl (hd b)
  | clr => exact absurd rfl hc
  | keyb b => simp [Engine.after]
  | rdb => obtain ⟨n, hn⟩ := e.after_rdb cap; rw [hn]; exact ⟨rfl, rfl⟩
  | _ => exact ⟨rfl, rfl⟩

/-- The flags of an operation and its result change under the start commands and CLR only. -/
theorem Engine.after_result (hs : ∀ k : OpKind, i ≠ k.start) (hc : i ≠ .clr) :
    (e.after cap i).busy = e.busy ∧ (e.after cap i).done = e.done ∧ (e.after cap i).err = e.err ∧
      (e.after cap i).op = e.op ∧ (e.after cap i).mem.obuf = e.mem.obuf := by
  cases i with
  | enc => exact absurd rfl (hs .enc)
  | dec => exact absurd rfl (hs .dec)
  | ecb => exact absurd rfl (hs .ecb)
  | clr => exact absurd rfl hc
  | keyb b => simp [Engine.after]
  | datb b => simp [Engine.after]
  | rdb => obtain ⟨n, hn⟩ := e.after_rdb cap; rw [hn]; exact ⟨rfl, rfl, rfl, rfl, rfl⟩
  | _ => exact ⟨rfl, rfl, rfl, rfl, rfl⟩

/-- The cursor changes under the start commands, RDB, RWD and CLR only. -/
theorem Engine.after_rptr (hs : ∀ k : OpKind, i ≠ k.start) (hb : i ≠ .rdb) (hw : i ≠ .rwd) (hc : i ≠ .clr) :
    (e.after cap i).rptr = e.rptr := by
  cases i with
  | enc => exact absurd rfl (hs .enc)
  | dec => exact absurd rfl (hs .dec)
  | ecb => exact absurd rfl (hs .ecb)
  | rdb => exact absurd rfl hb
  | rwd => exact absurd rfl hw
  | clr => exact absurd rfl hc
  | keyb b => simp [Engine.after]
  | datb b => simp [Engine.after]
  | _ => rfl

/-- The hidden registers change under CLR only. -/
theorem Engine.after_hidden (hc : i ≠ .clr) :
    (e.after cap i).w = e.w ∧ (e.after cap i).fb = e.fb ∧ (e.after cap i).st = e.st := by
  cases i with
  | clr => exact absurd rfl hc
  | keyb b => simp [Engine.after]
  | datb b => simp [Engine.after]
  | rdb => obtain ⟨n, hn⟩ := e.after_rdb cap; rw [hn]; exact ⟨rfl, rfl, rfl⟩
  | _ => exact ⟨rfl, rfl, rfl⟩
end

/-- Settles O25: an answer touches the engine and the responses only, and the engine is as it was or `Engine.after`. -/
theorem commandsWriteOnlyTheirOwn : Obligations.CommandsWriteOnlyTheirOwn := by
  intro i s t h
  obtain ⟨e, r, rfl, rfl | ⟨-, rfl⟩⟩ := exec_cases h
  · simp [State.sameOutside]
  · refine ⟨⟨rfl, rfl, rfl⟩, fun hk hc => ?_, fun hd hc => ?_, fun hs hc => ?_, s.engine.after_rptr s.icap,
      s.engine.after_hidden s.icap⟩
    · obtain ⟨hcnt, hbuf⟩ := s.engine.after_key s.icap hk hc
      exact ⟨hcnt, fun a => by rw [memRead_keybuf, hbuf, memRead_keybuf]⟩
    · obtain ⟨hiovf, hbuf⟩ := s.engine.after_input s.icap hd hc
      exact ⟨hiovf, fun a => by rw [memRead_ibuf, hbuf, memRead_ibuf]⟩
    · obtain ⟨hb, hd, he, ho, hbuf⟩ := s.engine.after_result s.icap hs hc
      exact ⟨hb, hd, he, ho, fun a => by rw [memRead_obuf, hbuf, memRead_obuf]⟩

end Sys2Proof.Machine
end

section
/-! The ENGINE step of each operation, its errors in their order, and what it leaves (R94, R118 to R122, R158 to R160). -/

namespace Sys2Proof.Machine

/-- Settles O30: past its two tests the outcome of ENC is `encrypt`, and it asks the random source. -/
theorem encCompletesAsEncrypt : Obligations.EncCompletesAsEncrypt := by
  intro s a rest hi hb ho hk hv
  have hr : s.engine.asksRng .enc = true := (Engine.asksRng_iff ..).mpr ⟨rfl, hk, hv⟩
  rw [step_complete_ended hi hb ho, Engine.outcome_enc hk hv, hr]
  rfl

/-- Settles O31: past its two tests the outcome of DEC is `decrypt`. -/
theorem decCompletesAsDecrypt : Obligations.DecCompletesAsDecrypt := by
  intro s a rest hi hb ho hk hv
  rw [step_complete_ended hi hb ho, Engine.outcome_dec hk hv]
  rfl

/-- Settles O32: past its three tests the outcome of ECB is the block encrypted. -/
theorem ecbCompletesAsBlockEncrypt : Obligations.EcbCompletesAsBlockEncrypt := by
  intro s a rest hi hb ho hk hv hl
  rw [step_complete_ended hi hb ho, Engine.outcome_ecb hk hv, if_neg (not_not.mpr hl)]
  rfl

/-- The error `decrypt` of framed input can report is the padding error. -/
theorem outcomeErr_decrypt_of_framed {key blob : List Byte} (hk : key.length = 32) (hf : framingOk blob.length = true) :
    outcomeErr (decrypt key blob) = none ∨ outcomeErr (decrypt key blob) = some .paddingError := by
  rw [decrypt_of_framed hk hf]
  cases h : unpad _ with
  | ok p => exact .inl rfl
  | error x => exact .inr (congrArg some (unpad_error h))

/-- Settles O33: `ERR` is that of the outcome, whose tests stand in the order of R158. -/
theorem errorsInPriorityOrder : Obligations.ErrorsInPriorityOrder := by
  intro s k a rest hi hb ho
  refine ⟨_, step_complete_ended hi hb ho, fun hk => ?_, fun hk hv => ?_, fun hk hv => ⟨?_, ?_, ?_, ?_⟩⟩
  · exact congrArg outcomeErr (Engine.outcome_of_key_ne hk k a)
  · exact congrArg outcomeErr (Engine.outcome_of_overflow hk hv k a)
  · rintro rfl hf
    rw [← framingOk_iff, Bool.not_eq_true] at hf
    exact congrArg outcomeErr ((Engine.outcome_dec hk hv a).trans (decrypt_of_not_framed s.engine.key_length hf))
  · rintro rfl h16 hm
    rw [Engine.outcome_dec hk hv]
    exact outcomeErr_decrypt_of_framed s.engine.key_length ((framingOk_iff _).mpr ⟨h16, hm⟩)
  · rintro rfl
    rw [Engine.outcome_ecb hk hv]
    by_cases hl : s.engine.ilen = 16 <;> simp [hl, Engine.ended, outcomeErr]
  · rintro rfl
    rw [Engine.outcome_enc hk hv]
    cases a <;> simp [encrypt, keyLen, Engine.ended, outcomeErr]

/-- An outcome with an error has no result (R160). -/
theorem outcomeBytes_of_error {r : Except ErrKind (List Byte)} (h : outcomeErr r ≠ none) : outcomeBytes r = [] := by
  cases r with
  | ok out => exact absurd rfl h
  | error x => rfl

/-- Settles O34: what `Engine.ended` holds beside the outcome is at its reset value. -/
theorem completionLeavesOnlyTheOutcome : Obligations.CompletionLeavesOnlyTheOutcome := by
  intro s k a rest hi hb ho
  exact ⟨_, step_complete_ended hi hb ho, rfl, rfl, rfl, fun _ => memRead_reset_keybuf, rfl, rfl, rfl, ⟨rfl, rfl, rfl⟩,
    rfl, rfl, rfl, rfl, fun he => congrArg List.length (outcomeBytes_of_error he)⟩

/-- Settles O36: the result of an ENC begins with the sixteen bytes of the answer. -/
theorem ivIsTheAnswerAsDelivered : Obligations.IvIsTheAnswerAsDelivered := by
  intro s iv rest hi hb ho hk hv
  have henc : encrypt s.engine.key (.bytes iv) s.engine.input = .ok _ :=
    encrypt_eq_ok_iff.mpr ⟨s.engine.key_length, rfl⟩
  refine ⟨_, encCompletesAsEncrypt s (.bytes iv) rest hi hb ho hk hv, by rw [henc]; rfl, fun i h16 => ?_⟩
  have hlt : i < iv.toBytes.length := h16
  rw [memRead_obuf, henc]
  change (iv.toBytes ++ _)[i]? = _
  rw [List.getElem?_append_left hlt, byteAt, List.getD_eq_getElem?_getD, List.getElem?_eq_getElem hlt, Option.getD_some]

/-- Settles O59: an engine with a failed operation is fixed by the operation and the error. -/
theorem failuresRevealOnlyTheirKind : Obligations.FailuresRevealOnlyTheirKind := by
  intro d e k a b hd he hne heq
  rw [Engine.complete_eq_ended hd] at hne heq ⊢
  rw [Engine.complete_eq_ended he] at heq ⊢
  change outcomeErr (d.outcome k a) ≠ none at hne
  change outcomeErr (d.outcome k a) = outcomeErr (e.outcome k b) at heq
  have hbytes := outcomeBytes_of_error hne
  have hbytes' := outcomeBytes_of_error (heq ▸ hne)
  simp only [Engine.ended, heq, hbytes, hbytes']

end Sys2Proof.Machine
end

section
/-! The feedback chain block by block (R105, R106), and blobs under two answers of the random source (R116). -/

namespace Sys2Proof

/-- Block `i + 1` of the ciphertext is made with the ciphertext block before it (R105). -/
theorem cfbEncBlocks_getElem?_succ (f : Block → Block) {fb x c : Block} {xs : List Block} {i : Nat}
    (hx : xs[i + 1]? = some x) (hc : (cfbEncBlocks f fb xs)[i]? = some c) :
    (cfbEncBlocks f fb xs)[i + 1]? = some (x.xor (f c)) := by
  induction xs generalizing fb i with
  | nil => cases hx
  | cons y ys ih =>
    cases i with
    | zero =>
      cases ys with
      | nil => cases hx
      | cons z zs => cases hx; cases hc; rfl
    | succ i => exact ih hx hc

/-- Block `i + 1` of the text is recovered with the ciphertext block before it (R106). -/
theorem cfbDecBlocks_getElem?_succ (f : Block → Block) {fb x d : Block} {cs : List Block} {i : Nat}
    (hx : cs[i + 1]? = some x) (hd : cs[i]? = some d) : (cfbDecBlocks f fb cs)[i + 1]? = some (x.xor (f d)) := by
  induction cs generalizing fb i with
  | nil => cases hx
  | cons y ys ih =>
    cases i with
    | zero =>
      cases ys with
      | nil => cases hx
      | cons z zs => cases hx; cases hd; rfl
    | succ i => exact ih hx hd

/-- Settles O47: the first block uses the IV, every later one the ciphertext block before it. -/
theorem feedbackChainBlockByBlock : Obligations.FeedbackChainBlockByBlock := by
  intro w iv xs f cs ys
  refine ⟨cfbEncBlocks_length .., cfbDecBlocks_length .., fun x hx => ?_, fun i x c d hx hc hd =>
    ⟨cfbEncBlocks_getElem?_succ f hx hc, cfbDecBlocks_getElem?_succ f hx hd⟩⟩
  cases xs with
  | nil => cases hx
  | cons y ys => cases hx; exact ⟨rfl, rfl⟩

/-- A blob begins with its IV (R110). -/
theorem take_of_encrypt {key p blob : List Byte} {iv : Block} (h : encrypt key (.bytes iv) p = .ok blob) :
    blob.take 16 = iv.toBytes := by
  obtain ⟨-, rfl⟩ := encrypt_eq_ok_iff.mp h
  exact List.take_left' iv.toBytes_length

/-- Settles O53: each blob begins with its own IV and decrypts to the plaintext. -/
theorem differentIvsGiveDifferentBlobs : Obligations.DifferentIvsGiveDifferentBlobs := by
  intro key p iv jv hk hne
  have h : encrypt key (.bytes iv) p = .ok _ := encrypt_eq_ok_iff.mpr ⟨hk, rfl⟩
  have h' : encrypt key (.bytes jv) p = .ok _ := encrypt_eq_ok_iff.mpr ⟨hk, rfl⟩
  refine ⟨_, _, h, h', fun heq => hne ?_, decrypt_of_encrypt h, decrypt_of_encrypt h'⟩
  rw [take_of_encrypt h, take_of_encrypt h'] at heq
  rw [← Block.ofBytes_toBytes iv, heq, Block.ofBytes_toBytes]

end Sys2Proof
end

section
/-! Runs: reading out the result, the busy window, and the calling sequence of one call (R67, R139, R183). -/

namespace Sys2Proof.Machine

/-! READALL (R67, R136). -/

/-- From the cursor on, each RDB is answered by the next byte, and the one after the last by EMPTY. -/
theorem run_pseudoRead {bs : List Byte} {s : State} (hb : s.engine.busy = false)
    (hd : s.engine.result.drop s.engine.rptr = bs) (hi : s.inputs = presented (pseudoRead (bs.length + 1))) :
    ∃ t, Sys2Proof.core.run (bs.length + 1) s = .next t ∧
      t.out = s.out ++ (bs.map fun v => BitVec.ofNat 32 (0x10000000 + v.toNat)) ++ [0x40000000] ∧
      t.engine = { s.engine with rptr := s.engine.rptr + bs.length } := by
  induction bs generalizing s with
  | nil =>
    have hv : memRead s.engine.mem .obuf s.engine.rptr = none :=
      List.getElem?_eq_none (List.drop_eq_nil_iff.mp hd)
    exact ⟨_, run_one ((step_encode hi).trans (exec_rdb_none hb hv)), by simp, rfl⟩
  | cons v bs ih =>
    have hv : memRead s.engine.mem .obuf s.engine.rptr = some v := by
      have h0 := congrArg (·[0]?) hd
      rwa [List.getElem?_drop, Nat.add_zero] at h0
    have hd' : s.engine.result.drop (s.engine.rptr + 1) = bs := by
      rw [← List.tail_drop, hd, List.tail_cons]
    rw [List.length_cons, run_succ ((step_encode hi).trans (exec_rdb_some hb hv))]
    obtain ⟨t, ht, hout, he⟩ := ih (s := { s with
      engine := { s.engine with rptr := s.engine.rptr + 1 }
      inputs := presented (pseudoRead (bs.length + 1))
      out := s.out ++ [BitVec.ofNat 32 (0x10000000 + v.toNat)] }) hb hd' rfl
    exact ⟨t, ht, by simp [hout], by simp only [he]; congr 1; omega⟩

/-- Settles O26: READALL is one RDB for each byte from the cursor on and one more. -/
theorem readAllGivesTheResult : Obligations.ReadAllGivesTheResult := by
  intro s hb hr hi
  have hlen : (s.engine.result.drop s.engine.rptr).length = s.engine.olen - s.engine.rptr := List.length_drop
  have hi' : s.inputs = presented (pseudoRead ((s.engine.result.drop s.engine.rptr).length + 1)) := by rw [hi, hlen]; rfl
  obtain ⟨t, ht, hout, he⟩ := run_pseudoRead hb rfl hi'
  have hn : s.inputs.length = (s.engine.result.drop s.engine.rptr).length + 1 := by
    rw [hi', presented, List.length_map, pseudoRead, List.length_replicate]
  refine ⟨t, hn ▸ ht, hout, ?_⟩
  rw [he, hlen, Nat.add_sub_cancel' hr]

/-! The busy window (R139, R191). -/

/-- A busy engine is left as it is by every word. -/
theorem hostStep_busy {s : State} (hb : s.engine.busy = true) (c : Word) :
    ∃ r, hostStep c s = .next { s with out := s.out ++ [Response.word r] } := by
  obtain ⟨e, r, h⟩ := hostStep_is_answer c s
  obtain ⟨e', r', ht, rfl | ⟨hidle, -⟩⟩ := hostStep_cases (h.trans (answer_eq s e r))
  · exact ⟨r', h.trans ((answer_eq s e r).trans (congrArg _ ht))⟩
  · exact absurd (hb.symm.trans hidle) (by decide)

/-- Any words to a busy engine give responses and change nothing else. -/
theorem run_words_busy {s : State} (hb : s.engine.busy = true) (words : List Word) {rest : List Event}
    (hi : s.inputs = words.map Event.command ++ rest) :
    ∃ out, Sys2Proof.core.run words.length s = .next { s with inputs := rest, out := out } := by
  induction words generalizing s with
  | nil => exact ⟨s.out, by rw [List.map_nil, List.nil_append] at hi; rw [← hi]; rfl⟩
  | cons c words ih =>
    obtain ⟨r, hr⟩ := hostStep_busy (s := { s with inputs := words.map Event.command ++ rest }) hb c
    rw [List.length_cons, run_succ ((step_command hi).trans hr)]
    exact ih hb rfl

/-- Settles O28: the words of the busy window leave the engine and the count of requests, and `Complete` runs on it. -/
theorem busyWindowChangesNothingAndCloses : Obligations.BusyWindowChangesNothingAndCloses := by
  intro s k words a rest hb ho hi
  obtain ⟨out, hrun⟩ := run_words_busy hb words hi
  refine ⟨⟨_, hrun, rfl, rfl⟩, ⟨_, (run_add hrun 1).trans (run_one (step_complete rfl hb ho)), rfl, rfl, ?_⟩⟩
  rw [Engine.complete_eq_ended ho]
  exact ⟨rfl, rfl⟩

/-! The calling sequence (R67, R183). -/

/-- Commands that start no operation, presented to an idle engine, are carried out one after the other. -/
theorem run_presented {s : State} (hb : s.engine.busy = false) (is : List Instr) {rest : List Event}
    (hs : ∀ i ∈ is, ∀ k : OpKind, i ≠ k.start) (hi : s.inputs = presented is ++ rest) :
    ∃ out, Sys2Proof.core.run is.length s = .next { s with
      engine := is.foldl (fun e i => e.after s.icap i) s.engine
      inputs := rest
      out := out } ∧ (is.foldl (fun e i => e.after s.icap i) s.engine).busy = false := by
  induction is generalizing s with
  | nil => exact ⟨s.out, by rw [presented_nil, List.nil_append] at hi; rw [← hi]; rfl, hb⟩
  | cons i is ih =>
    obtain ⟨hsi, hsis⟩ := List.forall_mem_cons.mp hs
    have hb' : (s.engine.after s.icap i).busy = false := by
      rcases s.engine.after_flags s.icap i with ⟨k, hk, -⟩ | ⟨-, he⟩ | ⟨hbusy, -⟩
      · exact absurd hk (hsi k)
      · rw [he]; rfl
      · rw [hbusy, hb]
    have hstep := (step_encode hi).trans ((exec_idle (s := { s with inputs := presented is ++ rest }) hb i).trans
      (answer_eq ..))
    rw [List.length_cons, run_succ hstep]
    exact ih hb' hsis rfl

/-- The engine that CLR and the bytes of a key and an input leave (R183). -/
def Engine.load (cap : Capacity) (key input : List Byte) : Engine :=
  input.foldl (Engine.pushInput cap) (key.foldl Engine.pushKey Engine.reset)

/-- The commands of the calling sequence before the start command. -/
def loadCommands (key input : List Byte) : List Instr := .clr :: (pseudoKey key ++ pseudoData input)

theorem loadCommands_not_start {key input : List Byte} : ∀ i ∈ loadCommands key input, ∀ k : OpKind, i ≠ k.start := by
  intro i hi k
  simp only [loadCommands, pseudoKey, pseudoData, List.mem_cons, List.mem_append, List.mem_map] at hi
  rcases hi with rfl | ⟨b, -, rfl⟩ | ⟨b, -, rfl⟩ <;> cases k <;> exact nofun

theorem foldl_after_loadCommands (cap : Capacity) (key input : List Byte) (e : Engine) :
    (loadCommands key input).foldl (fun e i => e.after cap i) e = Engine.load cap key input := by
  rw [loadCommands, List.foldl_cons, List.foldl_append, pseudoKey, pseudoData, List.foldl_map, List.foldl_map]
  rfl

theorem callEvents_eq (start : Instr) (key input : List Byte) (a : RngAnswer) : callEvents start key input a =
    presented (loadCommands key input) ++ [.command (encode start), .complete a] := by
  simp [callEvents, loadCommands]

/-- A start command to an idle engine and the ENGINE step leave the outcome on what is loaded. -/
theorem run_start_complete {s : State} (hb : s.engine.busy = false) {k : OpKind} {a : RngAnswer}
    (hi : s.inputs = [.command (encode k.start), .complete a]) :
    ∃ t, Sys2Proof.core.run 2 s = .next t ∧ t.engine = Engine.ended k ((s.engine.startOp k).outcome k a) := by
  have hstart := (step_encode hi).trans (exec_start_idle (s := { s with inputs := [.complete a] }) hb k)
  exact ⟨_, (run_succ hstart 1).trans (run_one (step_complete_ended rfl rfl rfl)), rfl⟩

/-- A call from any idle state leaves the outcome of its operation on the engine as loaded. -/
theorem run_callEvents {s : State} (hb : s.engine.busy = false) (k : OpKind) (key input : List Byte) (a : RngAnswer) :
    ∃ t, Sys2Proof.core.run (callEvents k.start key input a).length
        { s with inputs := callEvents k.start key input a } = .next t ∧
      t.engine = Engine.ended k (((Engine.load s.icap key input).startOp k).outcome k a) := by
  have hlen : (callEvents k.start key input a).length = (loadCommands key input).length + 2 := by
    simp [callEvents_eq, presented]
  obtain ⟨out, hload, hbusy⟩ := run_presented (s := { s with inputs := callEvents k.start key input a }) hb
    (loadCommands key input) loadCommands_not_start (callEvents_eq ..)
  rw [foldl_after_loadCommands] at hload hbusy
  obtain ⟨t, ht, he⟩ := run_start_complete (s := { s with
    engine := Engine.load s.icap key input
    inputs := [.command (encode k.start), .complete a]
    out := out }) hbusy rfl
  exact ⟨t, hlen ▸ (run_add hload 2).trans ht, he⟩

/-! What the calling sequence loads (R132, R133). -/

/-- The bytes of a key count up to 33. -/
theorem foldl_pushKey_keycnt (key : List Byte) {e : Engine} (h : e.keycnt ≤ 33) :
    (key.foldl Engine.pushKey e).keycnt = min (e.keycnt + key.length) 33 := by
  induction key generalizing e with
  | nil => simp [h]
  | cons b bs ih =>
    have hc := e.pushKey_keycnt b
    rw [List.foldl_cons, ih (by split at hc <;> omega), List.length_cons]
    split at hc <;> omega

/-- Cutting a sequence before more is appended to it changes nothing below the cut. -/
theorem take_take_append (xs ys : List Byte) (n : Nat) : (xs.take n ++ ys).take n = (xs ++ ys).take n := by
  rw [List.take_append, List.take_append, List.take_take, Nat.min_self, List.length_take,
    show n - min n xs.length = n - xs.length by omega]

/-- The key buffer holds the bytes of a key in order, up to 32 of them. -/
theorem foldl_pushKey_bytes (key : List Byte) (e : Engine) :
    (key.foldl Engine.pushKey e).key.take (key.foldl Engine.pushKey e).keycnt = (e.key.take e.keycnt ++ key).take 32 := by
  induction key generalizing e with
  | nil => rw [List.append_nil, List.take_of_length_le (i := 32) (by simp)]; rfl
  | cons b bs ih =>
    rw [List.foldl_cons, ih, Engine.pushKey_bytes, take_take_append, List.append_assoc, List.singleton_append]

/-- Loading a key leaves the input and the overflow flag as they are. -/
theorem foldl_pushKey_input (key : List Byte) (e : Engine) :
    (key.foldl Engine.pushKey e).mem.ibuf = e.mem.ibuf ∧ (key.foldl Engine.pushKey e).iovf = e.iovf := by
  induction key generalizing e with
  | nil => exact ⟨rfl, rfl⟩
  | cons b bs ih => simp [ih]

section
variable (cap : Capacity)

/-- Loading an input leaves the key as it is. -/
theorem foldl_pushInput_key (input : List Byte) (e : Engine) :
    (input.foldl (Engine.pushInput cap) e).keycnt = e.keycnt ∧
      (input.foldl (Engine.pushInput cap) e).mem.keybuf = e.mem.keybuf := by
  induction input generalizing e with
  | nil => exact ⟨rfl, rfl⟩
  | cons b bs ih => simp [ih]

/-- The overflow flag says whether an input did not fit. -/
theorem foldl_pushInput_iovf (input : List Byte) {e : Engine} (h : e.ilen ≤ cap.val) :
    (input.foldl (Engine.pushInput cap) e).iovf = (e.iovf || decide (cap.val < e.ilen + input.length)) := by
  induction input generalizing e with
  | nil => simp [h.not_gt]
  | cons b bs ih =>
    have hl := e.pushInput_ilen cap b
    rw [List.foldl_cons, ih (by split at hl <;> omega), Engine.pushInput_iovf, List.length_cons]
    by_cases hlt : e.ilen < cap.val
    · rw [hl, if_pos hlt, decide_eq_false hlt.not_ge, Bool.or_false, Nat.add_right_comm, Nat.add_assoc]
    · rw [decide_eq_true (not_lt.mp hlt), decide_eq_true (p := cap.val < e.ilen + (bs.length + 1)) (by omega)]
      simp

/-- An input that fits is appended as it is. -/
theorem foldl_pushInput_ibuf (input : List Byte) {e : Engine} (h : e.ilen + input.length ≤ cap.val) :
    (input.foldl (Engine.pushInput cap) e).mem.ibuf = e.mem.ibuf ++ input := by
  induction input generalizing e with
  | nil => simp
  | cons b bs ih =>
    rw [List.length_cons] at h
    have hlt : e.ilen < cap.val := by omega
    have hl := e.pushInput_ilen cap b
    rw [if_pos hlt] at hl
    rw [List.foldl_cons, ih (by omega), Engine.pushInput_ibuf, if_pos hlt, List.append_assoc, List.singleton_append]

variable (key input : List Byte)

/-- The count of key bytes after loading. -/
theorem Engine.load_keycnt : (Engine.load cap key input).keycnt = min key.length 33 := by
  rw [Engine.load, (foldl_pushInput_key ..).1, foldl_pushKey_keycnt key (Nat.zero_le _)]
  exact congrArg (min · 33) (Nat.zero_add _)

/-- A key of 32 bytes is loaded as it is. -/
theorem Engine.load_key (hk : key.length = 32) : (Engine.load cap key input).key = key := by
  have hbuf : (Engine.load cap key input).key = (key.foldl Engine.pushKey Engine.reset).key :=
    congrArg Vector.toList (foldl_pushInput_key ..).2
  have hcnt : (key.foldl Engine.pushKey Engine.reset).keycnt = 32 := by
    rw [foldl_pushKey_keycnt key (Nat.zero_le _), hk]
    rfl
  have hbytes := foldl_pushKey_bytes key Engine.reset
  rw [hcnt, List.take_of_length_le (by simp)] at hbytes
  rw [hbuf, hbytes]
  exact List.take_of_length_le hk.le

/-- The overflow flag after loading. -/
theorem Engine.load_iovf : (Engine.load cap key input).iovf = decide (cap.val < input.length) := by
  obtain ⟨hibuf, hiovf⟩ := foldl_pushKey_input key Engine.reset
  have hlen : (key.foldl Engine.pushKey Engine.reset).ilen = 0 := congrArg List.length hibuf
  rw [Engine.load, foldl_pushInput_iovf cap input (by omega), hiovf, hlen, Nat.zero_add]
  rfl

/-- An input that fits is loaded as it is. -/
theorem Engine.load_input (hl : input.length ≤ cap.val) : (Engine.load cap key input).input = input := by
  obtain ⟨hibuf, -⟩ := foldl_pushKey_input key Engine.reset
  have hlen : (key.foldl Engine.pushKey Engine.reset).ilen = 0 := congrArg List.length hibuf
  exact (foldl_pushInput_ibuf cap input (by omega)).trans (by rw [hibuf]; rfl)

/-- The outcome of a call is `f`, when `f` tests the key first and is the outcome of every call whose key and input are
loaded as they are. -/
theorem outcome_load {k : OpKind} {a : RngAnswer} {f : Except ErrKind (List Byte)}
    (hkey : key.length ≠ 32 → f = .error .invalidKeyLength)
    (hfit : ∀ e : Engine, e.keycnt = 32 → e.iovf = false → e.key = key → e.input = input → e.outcome k a = f) :
    ((Engine.load cap key input).startOp k).outcome k a = if input.length ≤ cap.val then f
      else .error (if key.length = 32 then .inputOverflow else .invalidKeyLength) := by
  have hcnt := Engine.load_keycnt cap key input
  have hiovf := Engine.load_iovf cap key input
  by_cases hk : key.length = 32
  · rw [hk] at hcnt
    by_cases hl : input.length ≤ cap.val
    · rw [if_pos hl]
      exact hfit _ hcnt (hiovf.trans (decide_eq_false hl.not_gt)) (Engine.load_key cap key input hk)
        (Engine.load_input cap key input hl)
    · rw [if_neg hl, if_pos hk]
      exact Engine.outcome_of_overflow hcnt (hiovf.trans (decide_eq_true (not_le.mp hl))) k a
  · rw [Engine.outcome_of_key_ne (e := (Engine.load cap key input).startOp k) (by rw [Engine.startOp_keycnt]; omega),
      hkey hk, if_neg hk, ite_self]
end

/-- Settles O37: the call sequence is run to its outcome, which each document function agrees with. -/
theorem callSequenceIsTheFunction : Obligations.CallSequenceIsTheFunction := by
  intro s key input a hb run tooLong
  have call : ∀ {k : OpKind} {f : Except ErrKind (List Byte)}, (key.length ≠ 32 → f = .error .invalidKeyLength) →
      (∀ e : Engine, e.keycnt = 32 → e.iovf = false → e.key = key → e.input = input → e.outcome k a = f) →
      ∃ t : State, run k = .next t ∧ t.engine = Engine.ended k (if input.length ≤ s.icap.val then f else tooLong) := by
    intro k f hkey hfit
    obtain ⟨t, ht, he⟩ := run_callEvents hb k key input a
    exact ⟨t, ht, by rw [he, outcome_load s.icap key input hkey hfit]⟩
  refine ⟨call (fun hk => if_pos hk) ?_, call (fun hk => if_pos hk) ?_, call (fun hk => if_pos hk) ?_⟩
  · rintro e hk hv rfl rfl
    exact Engine.outcome_enc hk hv a
  · rintro e hk hv rfl rfl
    exact Engine.outcome_dec hk hv a
  · rintro e hk hv rfl rfl
    rw [Engine.outcome_ecb hk hv, e.key_length, e.input_length, if_neg (not_not.mpr rfl)]

end Sys2Proof.Machine
end

section
/-! What a host cannot see (R166): responses depend on the flags, the result and the cursor only. -/

namespace Sys2Proof.Machine

section
variable {d e : Engine} (h : SameToHost d e)
include h

theorem SameToHost.status : d.status = e.status := by
  simp only [Engine.status, h.busy, h.done, h.iovf, h.err, h.op]

theorem SameToHost.olen : d.olen = e.olen := congrArg List.length h.obuf

theorem SameToHost.nextByte : d.nextByte = e.nextByte := by
  simp only [Engine.nextByte, memRead_obuf, h.obuf, h.rptr]

/-- Engines that look the same to the host reply the same. -/
theorem SameToHost.reply (i : Instr) : d.reply i = e.reply i := by
  cases i with
  | stat => exact congrArg Response.status h.status
  | rdl => simp only [Engine.reply, h.olen]
  | rdb => simp only [Engine.reply, h.nextByte]
  | _ => rfl
end

/-- Machines whose engines look the same to the host are answered the same, and either keep their engines or both carry out
the same command. -/
theorem hostStep_congr {s t : State} (h : SameToHost s.engine t.engine) (c : Word) :
    ∃ d e r, hostStep c s = answer s d r ∧ hostStep c t = answer t e r ∧
      (d = s.engine ∧ e = t.engine ∨ ∃ i, d = s.engine.after s.icap i ∧ e = t.engine.after t.icap i) := by
  cases hd : decode c with
  | error x => exact ⟨_, _, _, hostStep_illegal hd s, hostStep_illegal hd t, .inl ⟨rfl, rfl⟩⟩
  | ok i =>
    rw [hostStep_legal hd, hostStep_legal hd]
    cases hb : s.engine.busy with
    | false =>
      exact ⟨_, _, _, exec_idle hb i, h.reply i ▸ exec_idle (h.busy ▸ hb) i, .inr ⟨i, rfl, rfl⟩⟩
    | true =>
      by_cases hi : i = .nop ∨ i = .stat
      · exact ⟨_, _, _, exec_ungated s hi, h.reply i ▸ exec_ungated t hi, .inl ⟨rfl, rfl⟩⟩
      · obtain ⟨hn, hs⟩ := not_or.mp hi
        exact ⟨_, _, .nakBusy, exec_busy hb hn hs, exec_busy (h.busy ▸ hb) hn hs, .inl ⟨rfl, rfl⟩⟩

/-- Settles O57: the two answers carry the same response. -/
theorem responsesRevealNoSecret : Obligations.ResponsesRevealNoSecret := by
  intro s t c h
  obtain ⟨d, e, r, hs, ht, -⟩ := hostStep_congr h c
  exact ⟨_, _, r.word, hs, ht, rfl, rfl⟩

/-- Two engines that differ at most in the bytes they hold secret (the engine's part of `LowEq`). -/
structure SameShape (d e : Engine) : Prop where
  seen   : SameToHost d e
  keycnt : d.keycnt = e.keycnt
  ilen   : d.ilen = e.ilen

/-- A command keeps the difference of two engines to the bytes they hold secret. -/
theorem SameShape.after {d e : Engine} (h : SameShape d e) (cap : Capacity) (i : Instr) :
    SameShape (d.after cap i) (e.after cap i) := by
  obtain ⟨hs, hk, hl⟩ := h
  have started : ∀ k, SameShape (d.startOp k) (e.startOp k) :=
    fun k => ⟨⟨rfl, rfl, hs.iovf, rfl, rfl, rfl, rfl⟩, hk, hl⟩
  have moved : ∀ n, SameShape { d with rptr := n } { e with rptr := n } :=
    fun n => ⟨{ hs with rptr := rfl }, hk, hl⟩
  cases i with
  | keyb b =>
    refine ⟨?_, ?_, ?_⟩
    · constructor <;> simp [Engine.after, hs.busy, hs.done, hs.iovf, hs.err, hs.op, hs.rptr, hs.obuf]
    · simp [Engine.after, hk]
    · simp [Engine.after, hl]
  | datb b =>
    refine ⟨?_, ?_, ?_⟩
    · constructor <;> simp [Engine.after, hs.busy, hs.done, hs.iovf, hs.err, hs.op, hs.rptr, hs.obuf, hl]
    · simp [Engine.after, hk]
    · simp [Engine.after, Engine.pushInput_ilen, hl]
  | enc => exact started .enc
  | dec => exact started .dec
  | ecb => exact started .ecb
  | rdb =>
    cases hn : d.nextByte with
    | none => rw [Engine.after_rdb_none hn, Engine.after_rdb_none (hs.nextByte ▸ hn)]; exact ⟨hs, hk, hl⟩
    | some v =>
      rw [Engine.after_rdb_some hn, Engine.after_rdb_some (hs.nextByte ▸ hn), hs.rptr]
      exact moved _
  | rwd => exact moved 0
  | clr => exact ⟨⟨rfl, rfl, rfl, rfl, rfl, rfl, rfl⟩, rfl, rfl⟩
  | _ => exact ⟨hs, hk, hl⟩

/-- Machines that differ in secrets only take the same event to machines that do. -/
theorem LowEq.step {s t : State} {ev : Event} {rest : List Event} (h : LowEq s t) (hi : s.inputs = ev :: rest)
    (hev : ev.isHostOrReset = true) :
    ∃ s' t', step s = .next s' ∧ step t = .next t' ∧ LowEq s' t' ∧ s'.inputs = rest := by
  obtain ⟨hs, hk, hl, hc, hin, hout, hreq⟩ := h
  have hit : t.inputs = ev :: rest := hin ▸ hi
  cases ev with
  | complete a => cases hev
  | reset =>
    exact ⟨_, _, step_reset hi, step_reset hit,
      ⟨⟨rfl, rfl, rfl, rfl, rfl, rfl, rfl⟩, rfl, rfl, hc, rfl, hout, hreq⟩, rfl⟩
  | command c =>
    obtain ⟨d, e, r, hds, het, hde⟩ :=
      hostStep_congr (s := { s with inputs := rest }) (t := { t with inputs := rest }) hs c
    have hshape : SameShape d e := by
      rcases hde with ⟨rfl, rfl⟩ | ⟨i, rfl, rfl⟩
      · exact ⟨hs, hk, hl⟩
      · change SameShape (s.engine.after s.icap i) (t.engine.after t.icap i)
        rw [← hc]
        exact SameShape.after ⟨hs, hk, hl⟩ s.icap i
    obtain ⟨hseen, hcnt, hlen⟩ := hshape
    exact ⟨_, _, (step_command hi).trans hds, (step_command hit).trans het,
      ⟨hseen, hcnt, hlen, hc, rfl, congrArg (· ++ [r.word]) hout, hreq⟩, rfl⟩

/-- Settles O58: one step after the other, as long as there are events. -/
theorem secretsStayHiddenUntilCompletion : Obligations.SecretsStayHiddenUntilCompletion := by
  intro s t n h hev hn
  induction n generalizing s t with
  | zero => exact ⟨s, t, rfl, rfl, h⟩
  | succ n ih =>
    cases hi : s.inputs with
    | nil => rw [hi] at hn; cases hn
    | cons ev rest =>
      rw [hi] at hev hn
      obtain ⟨hev1, hevs⟩ := List.forall_mem_cons.mp hev
      obtain ⟨s', t', hs, ht, h', hi'⟩ := h.step hi hev1
      rw [run_succ hs, run_succ ht]
      exact ih s' t' h' (hi' ▸ hevs) (hi' ▸ Nat.le_of_succ_le_succ hn)

end Sys2Proof.Machine
end

end

section
/-! The proofs of this part too are elaborated one after another, by the same option as those of the part before. -/

set_option deprecated.oldSectionVars true

section
/-! The arithmetic of the block core (R78, R79, R81): `gmul` is additive in its first factor and passes through additive
maps that commute with `xtime`, from which the laws of the field follow, and the S-box holds each byte's inverse. -/

namespace Sys2Proof

/-! Multiplication by `x` (R78). -/

/-- Settles O38: the left shift is doubling modulo 256, and bit 7 decides what is added. -/
theorem xtimeIsShiftAndReduce : Obligations.XtimeIsShiftAndReduce := by
  intro b
  have hshift : (b <<< 1).toNat = b.toNat * 2 % 256 := by
    rw [BitVec.toNat_shiftLeft, Nat.shiftLeft_eq, pow_one]
  cases h : b.getLsbD 7 <;> simp only [xtime, h, BitVec.toNat_xor, hshift] <;> rfl

/-! The laws of the product (R79). -/

/-- One turn of the loop of R79 is additive in the product so far and the shifted factor together. -/
theorem gmulStep_xor (b p q a c : Byte) (i : Nat) :
    gmulStep b (p ^^^ q, a ^^^ c) i =
      ((gmulStep b (p, a) i).1 ^^^ (gmulStep b (q, c) i).1, (gmulStep b (p, a) i).2 ^^^ (gmulStep b (q, c) i).2) := by
  cases hb : b.getLsbD i with
  | false => simp [gmulStep, hb, xtime_xor]
  | true =>
    have hswap : p ^^^ q ^^^ (a ^^^ c) = p ^^^ a ^^^ (q ^^^ c) := by ac_rfl
    simp [gmulStep, hb, xtime_xor, hswap]

/-- So is the whole loop, over any bits of the second factor. -/
theorem foldl_gmulStep_xor (b : Byte) (is : List Nat) (p q a c : Byte) :
    is.foldl (gmulStep b) (p ^^^ q, a ^^^ c) =
      ((is.foldl (gmulStep b) (p, a)).1 ^^^ (is.foldl (gmulStep b) (q, c)).1,
       (is.foldl (gmulStep b) (p, a)).2 ^^^ (is.foldl (gmulStep b) (q, c)).2) := by
  induction is generalizing p q a c with
  | nil => rfl
  | cons i is ih => simp only [List.foldl_cons, gmulStep_xor, ih]

theorem xor_gmul (a c b : Byte) : gmul (a ^^^ c) b = gmul a b ^^^ gmul c b :=
  congrArg Prod.fst (foldl_gmulStep_xor b (List.range 8) 0x00 0x00 a c)

theorem xtime_gmul (a b : Byte) : gmul (xtime a) b = xtime (gmul a b) :=
  gmul_map_left xtime_xor (fun _ => rfl) a b

/-- The product is commutative: multiplication by `b` passes through a product, so `(1 * b) * c` is `(1 * c) * b`. -/
theorem gmul_comm (b c : Byte) : gmul b c = gmul c b := by
  have h : gmul (gmul 0x01 b) c = gmul (gmul 0x01 c) b :=
    gmul_map_left (f := (gmul · b)) (fun a d => xor_gmul a d b) (fun a => (xtime_gmul a b).symm) 0x01 c
  rwa [gmul_one, gmul_one] at h

theorem gmul_xor (a b c : Byte) : gmul a (b ^^^ c) = gmul a b ^^^ gmul a c := by
  rw [gmul_comm, xor_gmul, gmul_comm b, gmul_comm c]

theorem gmul_xtime (a b : Byte) : gmul a (xtime b) = xtime (gmul a b) := by
  rw [gmul_comm, xtime_gmul, gmul_comm]

/-- The product is associative: multiplication by `a` from the left passes through a product too. -/
theorem gmul_assoc (a b c : Byte) : gmul (gmul a b) c = gmul a (gmul b c) :=
  gmul_map_left (gmul_xor a) (fun d => (gmul_xtime a d).symm) b c

theorem gmul_one_right (a : Byte) : gmul a 0x01 = a := by rw [gmul_comm, gmul_one]

theorem gmul_zero (a : Byte) : gmul a 0x00 = 0x00 := by simpa using gmul_xor a 0x00 0x00

/-! Inverses (R79, R81). -/

/-- A byte has at most one inverse. -/
theorem gmul_inverse_unique {a t u : Byte} (ht : gmul a t = 0x01) (hu : gmul a u = 0x01) : u = t :=
  calc u = gmul (gmul a t) u := by rw [ht, gmul_one]
    _ = gmul t (gmul a u) := by rw [gmul_comm a t, gmul_assoc]
    _ = t := by rw [hu, gmul_one_right]

/-- The field inverse of `v`, and `0x00` for `0x00`, read off the S-box: the affine map of R81 undone on the entry of
`v`. -/
def fieldInv (v : Byte) : Byte :=
  (sbox v).rotateLeft 1 ^^^ (sbox v).rotateLeft 3 ^^^ (sbox v).rotateLeft 6 ^^^ 0x05

theorem fieldInv_zero : fieldInv 0x00 = 0x00 := by decide

/-- Each entry of the table of R80 gives the inverse of its index, but for the index 0; one row at a time, so that the
kernel evaluates sixteen products in one go and not all 255. -/
theorem gmul_fieldInv_row {row : Nat} (hrow : row < 16) : ∀ col < 16, 16 * row + col ≠ 0 →
    gmul (BitVec.ofNat 8 (16 * row + col)) (fieldInv (BitVec.ofNat 8 (16 * row + col))) = 0x01 := by
  interval_cases row <;> decide +kernel

/-- Every byte but zero has an inverse, the one read off the table. -/
theorem gmul_fieldInv (v : Byte) (hv : v ≠ 0x00) : gmul v (fieldInv v) = 0x01 := by
  have hsplit : 16 * (v.toNat / 16) + v.toNat % 16 = v.toNat := Nat.div_add_mod ..
  have h := gmul_fieldInv_row (row := v.toNat / 16) (by omega) (v.toNat % 16) (Nat.mod_lt _ (by decide))
  rw [hsplit, BitVec.ofNat_toNat, BitVec.setWidth_eq] at h
  exact h fun h0 => hv (BitVec.eq_of_toNat_eq h0)

/-- Settles O39: the laws above, and the inverse of a byte from the S-box. -/
theorem gmulIsFieldMultiplication : Obligations.GmulIsFieldMultiplication :=
  ⟨gmul_comm, gmul_assoc, gmul_xor, fun a => ⟨gmul_one_right a, gmul_zero a⟩,
    fun a ha => ⟨fieldInv a, gmul_fieldInv a ha, fun _ => gmul_inverse_unique (gmul_fieldInv a ha)⟩,
    fun v => ⟨gmul_one v, gmul_two v, gmul_three v⟩, by decide, by decide, by decide⟩

/-- The inverse by its bits: three bits of the entry of the table and a constant. -/
theorem fieldInv_getLsbD (v : Byte) {i : Nat} (hi : i < 8) : (fieldInv v).getLsbD i =
    ((sbox v).getLsbD ((i + 7) % 8) ^^ (sbox v).getLsbD ((i + 5) % 8) ^^ (sbox v).getLsbD ((i + 2) % 8) ^^
      (0x05 : Byte).getLsbD i) := by
  simp only [fieldInv, BitVec.getLsbD_xor, BitVec.getLsbD_rotateLeft]
  interval_cases i <;> simp

/-- The affine map of R81 after its inverse, with `a` to `h` the bits `i` to `i + 7` of the entry of the table and the
constants apart: every bit but `a` stands in two of the five sums. -/
theorem five_sums_cancel (a b c d e f g h p q r s t u : Bool) :
    ((h ^^ f ^^ c ^^ p) ^^ (d ^^ b ^^ g ^^ q) ^^ (e ^^ c ^^ h ^^ r) ^^ (f ^^ d ^^ a ^^ s) ^^ (g ^^ e ^^ b ^^ t) ^^ u) =
      (a ^^ (p ^^ q ^^ r ^^ s ^^ t ^^ u)) := by
  have hcancel : ∀ x y : Bool, (x ^^ (x ^^ y)) = y := by decide
  simp only [Bool.xor_comm, Bool.xor_left_comm, hcancel]

/-- The constants of the affine map and of its inverse cancel. -/
theorem affine_constants_cancel : ∀ i < 8, ((0x05 : Byte).getLsbD i ^^ (0x05 : Byte).getLsbD ((i + 4) % 8) ^^
    (0x05 : Byte).getLsbD ((i + 5) % 8) ^^ (0x05 : Byte).getLsbD ((i + 6) % 8) ^^ (0x05 : Byte).getLsbD ((i + 7) % 8) ^^
    (0x63 : Byte).getLsbD i) = false := by decide

/-- The S-box is the affine map of R81 on `fieldInv`. -/
theorem sbox_getLsbD (v : Byte) {i : Nat} (hi : i < 8) : (sbox v).getLsbD i =
    ((fieldInv v).getLsbD i ^^ (fieldInv v).getLsbD ((i + 4) % 8) ^^ (fieldInv v).getLsbD ((i + 5) % 8) ^^
      (fieldInv v).getLsbD ((i + 6) % 8) ^^ (fieldInv v).getLsbD ((i + 7) % 8) ^^ (0x63 : Byte).getLsbD i) := by
  have hconst := affine_constants_cancel i hi
  interval_cases i <;>
    simp only [fieldInv_getLsbD, Nat.reduceAdd, Nat.reduceMod, Nat.reduceLT, five_sums_cancel] at hconst ⊢ <;>
    rw [hconst, Bool.xor_false]

/-- Settles O40: the inverse is unique, so it is the one read off the table. -/
theorem sboxIsAffineOfInverse : Obligations.SboxIsAffineOfInverse := by
  intro v t ht i hi
  have htv : t = fieldInv v := by
    split at ht
    next hv => rw [ht, hv, fieldInv_zero]
    next hv => exact gmul_inverse_unique (gmul_fieldInv v hv) ht
  rw [htv, sbox_getLsbD v hi]

end Sys2Proof
end

section
/-! The four transformations of a round by row and column, each written out over the sixteen cells (R84 to R87). -/

namespace Sys2Proof

section
variable {r c : Nat} (hr : r < 4) (hc : c < 4)
include hr hc

theorem subBytes_cell (s : Block) : (subBytes s).cell r c = sbox (s.cell r c) := by
  interval_cases r <;> interval_cases c <;> rfl

theorem shiftRows_cell (s : Block) : (shiftRows s).cell r c = s.cell r ((c + r) % 4) := by
  interval_cases r <;> interval_cases c <;> rfl

theorem addRoundKey_cell (w : RoundKeys) (round : Nat) (s : Block) :
    (addRoundKey w round s).cell r c = s.cell r c ^^^ (w.word (4 * round + c)).byte r := by
  interval_cases r <;> interval_cases c <;> rfl

end

/-- Settles O41: three transformations by the cell, and `MixColumns` by the column. -/
theorem transformationsByRowAndColumn : Obligations.TransformationsByRowAndColumn := by
  intro s w round r c hr hc
  refine ⟨subBytes_cell hr hc s, shiftRows_cell hr hc s, addRoundKey_cell hr hc w round s, ?_⟩
  interval_cases c <;> exact ⟨rfl, rfl, rfl, rfl⟩

end Sys2Proof
end

section
/-! The key schedule (R88 to R90): the loop only adds words, so the recurrence of a word can be read where its turn ends. -/

namespace Sys2Proof

/-- Word `i` of a schedule held newest word first, as the loop of R90 holds it. -/
def loopWord (ws : List AesWord) (i : Nat) : AesWord := ws.reverse.getD i .zero

/-- A new word leaves the words before it. -/
theorem loopWord_cons {v : AesWord} {ws : List AesWord} {i : Nat} (hi : i < ws.length) :
    loopWord (v :: ws) i = loopWord ws i := by
  rw [loopWord, List.reverse_cons, List.getD_append _ _ _ _ (by rwa [List.length_reverse]), loopWord]

theorem loopWord_cons_length (v : AesWord) (ws : List AesWord) : loopWord (v :: ws) ws.length = v := by
  simp [loopWord]

/-- The `k`-th newest word by its number. -/
theorem getD_eq_loopWord {ws : List AesWord} {k : Nat} (hk : k < ws.length) :
    ws.getD k .zero = loopWord ws (ws.length - 1 - k) := by
  have hlt : ws.length - 1 - k < ws.length := by omega
  have hback : ws.length - 1 - (ws.length - 1 - k) = k := by omega
  simp only [loopWord, List.getD_eq_getElem?_getD, List.getElem?_reverse hlt, hback]

/-- The word one turn of the loop adds. -/
theorem loopWord_scheduleStep {ws : List AesWord} (h : 8 ≤ ws.length) :
    loopWord (scheduleStep ws) ws.length =
      (loopWord ws (ws.length - 8)).xor (scheduleTemp ws.length (loopWord ws (ws.length - 1))) := by
  rw [scheduleStep, loopWord_cons_length, getD_eq_loopWord (by omega), getD_eq_loopWord (by omega), Nat.sub_sub,
    Nat.sub_zero]

/-- The loop leaves the words it starts from. -/
theorem loopWord_scheduleLoop (n : Nat) {ws : List AesWord} {i : Nat} (hi : i < ws.length) :
    loopWord (scheduleLoop n ws) i = loopWord ws i := by
  induction n generalizing ws with
  | zero => rfl
  | succ n ih =>
    rw [scheduleLoop, ih (hi.trans (Nat.lt_succ_self _)), scheduleStep, loopWord_cons hi]

/-- Every word the loop adds is made of the words one and eight before it. -/
theorem loopWord_scheduleLoop_added (n : Nat) {ws : List AesWord} (h : 8 ≤ ws.length) {i : Nat}
    (hlo : ws.length ≤ i) (hhi : i < ws.length + n) :
    loopWord (scheduleLoop n ws) i =
      (loopWord (scheduleLoop n ws) (i - 8)).xor (scheduleTemp i (loopWord (scheduleLoop n ws) (i - 1))) := by
  induction n generalizing ws with
  | zero => omega
  | succ n ih =>
    have hlen : (scheduleStep ws).length = ws.length + 1 := rfl
    rw [scheduleLoop]
    rcases Nat.eq_or_lt_of_le hlo with rfl | hlt
    · have hkept : ∀ j < ws.length, loopWord (scheduleLoop n (scheduleStep ws)) j = loopWord ws j :=
        fun j hj => loopWord_scheduleLoop (n + 1) hj
      rw [loopWord_scheduleLoop n (by omega), loopWord_scheduleStep h, hkept _ (by omega), hkept _ (by omega)]
    · exact ih (by omega) (by omega) (by omega)

/-- The round keys are the words of the loop. -/
theorem keyExpansion_word (key : List Byte) (i : Nat) :
    (keyExpansion key).word i = loopWord (scheduleLoop 52 ((List.range 8).map (wordAt key)).reverse) i := rfl

theorem keyExpansion_word_of_lt (key : List Byte) {i : Nat} (hi : i < 8) : (keyExpansion key).word i = wordAt key i := by
  rw [keyExpansion_word, loopWord_scheduleLoop 52 hi]
  interval_cases i <;> rfl

theorem keyExpansion_word_of_ge (key : List Byte) {i : Nat} (hlo : 8 ≤ i) (hhi : i < 60) :
    (keyExpansion key).word i =
      ((keyExpansion key).word (i - 8)).xor (scheduleTemp i ((keyExpansion key).word (i - 1))) := by
  simp only [keyExpansion_word]
  exact loopWord_scheduleLoop_added 52 le_rfl hlo hhi

/-- Settles O42: `scheduleTemp` has the three cases, for a key of any length. -/
theorem keyExpansionRecurrence : Obligations.KeyExpansionRecurrence :=
  ⟨by decide, fun _ _ _ _ => ⟨rfl, rfl⟩, fun key _ =>
    ⟨fun _ hi => keyExpansion_word_of_lt key hi, fun _ hlo hhi => keyExpansion_word_of_ge key hlo hhi⟩⟩

end Sys2Proof
end

end
